-- ==== Sys2Proof/Word.lean ====
section
/-! DEFINITION. The two value widths of the machine: bytes and 32-bit words (00_scope.md R7). -/

namespace Sys2Proof

/-- The unit of data memory and of the program stream, 8 bits (R7). -/
abbrev Byte := BitVec 8

/-- A register or a memory word, `XLEN` = 32 bits, always unsigned (R7, R9). -/
abbrev Word := BitVec 32

end Sys2Proof
end

