-- ==== Sys2Proof/Syntax.lean ====
section
/-! DEFINITION. The instructions (30_encoding.md R54) and the abstract instruction with named fields that the
encoder takes (00_scope.md R12, 30_encoding.md R67, R76). -/

namespace Sys2Proof

/-- The four instructions; a constructor's arguments are the fields of the table row, in the order of the
encoding (R54). A field is a natural number, because an abstract instruction carries "named integer field
values" and the encoder accepts and truncates over-wide ones (R68, R76). Every field of a DECODED instruction
is within its width (R72): `Instr.wf`. -/
inductive Instr where
  /-- `LoadConst{address, constant}`, opcode 2 (R57, R89). -/
  | loadConst (address constant : Nat)
  /-- `ReadMem{result_addr, source_addr}`, opcode 7 (R58, R91). -/
  | readMem (resultAddr sourceAddr : Nat)
  /-- `WriteMem{source_addr, result_addr}`, opcode 5, its fields in the opposite positions (R59, R61, R92). -/
  | writeMem (sourceAddr resultAddr : Nat)
  /-- `ByteSwap{result_addr, operand_offset, result_offset, operand_addr}`, opcode 13 (R60, R94, C4). -/
  | byteSwap (resultAddr operandOffset resultOffset operandAddr : Nat)
  deriving DecidableEq, Repr

/-- The instruction variants, which the opcode selects (R2, R54). -/
inductive Opcode where
  | loadConst
  | readMem
  | writeMem
  | byteSwap
  deriving DecidableEq, Repr

/-- The variant of an instruction. -/
def Instr.opcode : Instr → Opcode
  | .loadConst _ _ => .loadConst
  | .readMem _ _ => .readMem
  | .writeMem _ _ => .writeMem
  | .byteSwap _ _ _ _ => .byteSwap

/-- The field names of the instruction set table (R54). -/
inductive FieldName where
  | address
  | constant
  | resultAddr
  | sourceAddr
  | operandOffset
  | resultOffset
  | operandAddr
  deriving DecidableEq, Repr

/-- An abstract instruction: an opcode tag and named integer field values, in any order, some possibly missing
(R12, R67, R76). The tag need not be one of the table's. -/
structure AbstractInstr where
  opcode : Nat
  fields : List (FieldName × Nat)
  deriving DecidableEq, Repr

/-- The fields of an instruction under their names. -/
def Instr.named : Instr → List (FieldName × Nat)
  | .loadConst address constant => [(.address, address), (.constant, constant)]
  | .readMem resultAddr sourceAddr => [(.resultAddr, resultAddr), (.sourceAddr, sourceAddr)]
  | .writeMem sourceAddr resultAddr => [(.sourceAddr, sourceAddr), (.resultAddr, resultAddr)]
  | .byteSwap resultAddr operandOffset resultOffset operandAddr =>
    [(.resultAddr, resultAddr), (.operandOffset, operandOffset), (.resultOffset, resultOffset),
      (.operandAddr, operandAddr)]

/-- The instruction of a variant whose fields have the values `f` gives them. -/
def Instr.ofFields (f : FieldName → Nat) : Opcode → Instr
  | .loadConst => .loadConst (f .address) (f .constant)
  | .readMem => .readMem (f .resultAddr) (f .sourceAddr)
  | .writeMem => .writeMem (f .sourceAddr) (f .resultAddr)
  | .byteSwap => .byteSwap (f .resultAddr) (f .operandOffset) (f .resultOffset) (f .operandAddr)

end Sys2Proof
end

