-- ==== Sys2Proof/WellFormed.lean ====
section
/-! DEFINITION. Well-formed instructions: every field within its declared bit width (30_encoding.md R54, R62, R72). -/

namespace Sys2Proof

/-- A register index fits its 7-bit field, so it names one of the 128 registers (00_scope.md R7). -/
def wfReg (index : Nat) : Bool := decide (index < 2 ^ 7)

/-- LoadConst's constant fits its 27-bit field (R62). -/
def wfConstant (value : Nat) : Bool := decide (value < 2 ^ 27)

/-- A ByteSwap offset fits its 12-bit field (R62). -/
def wfOffset (value : Nat) : Bool := decide (value < 2 ^ 12)

/-- Every field is within its width. Each decoded instruction is (R72). -/
def Instr.wf : Instr → Bool
  | .loadConst address constant => wfReg address && wfConstant constant
  | .readMem resultAddr sourceAddr => wfReg resultAddr && wfReg sourceAddr
  | .writeMem sourceAddr resultAddr => wfReg sourceAddr && wfReg resultAddr
  | .byteSwap resultAddr operandOffset resultOffset operandAddr =>
    wfReg resultAddr && wfOffset operandOffset && wfOffset resultOffset && wfReg operandAddr

end Sys2Proof
end

