-- ==== Sys2Proof/Decode.lean ====
section
/-! DEFINITION. The bit-field codec (30_encoding.md R50 to R52), the instruction set table (R54, R55), the decoder
(R69 to R74) and the encoder (R67, R68). -/

namespace Sys2Proof

/-! ### Byte sequences as integers -/

/-- `n` bytes of the number `v`, lowest first: byte `k` is `v[8k+7 : 8k]` (R50). -/
def leBytes : Nat → Nat → List Byte
  | 0, _ => []
  | n + 1, v => BitVec.ofNat 8 v :: leBytes n (v / 256)

/-- A byte sequence read as one little-endian integer, the `W` of R10. -/
def leNat : List Byte → Nat
  | [] => 0
  | b :: bs => b.toNat + 256 * leNat bs

/-- Stream bit `s` of a byte sequence: bit `s mod 8` of byte `s div 8`, 0 past its end (R10). -/
def streamBit (bytes : List Byte) (s : Nat) : Bool := ((bytes[s / 8]?).getD 0).getLsbD (s % 8)

/-- `W[lo + width - 1 : lo]` (R9). -/
def slice (w lo width : Nat) : Nat := (w >>> lo) % 2 ^ width

/-- `ceil(bits / 8)` (R50, R55). -/
def bytesFor (bits : Nat) : Nat := (bits + 7) / 8

/-! ### The codec -/

/-- The value `V` that `pack` builds from (value, width) pairs, the first field at stream bit `offset`:
each value reduced to its width, each field above the one before (R50). -/
def packValue : Nat → List (Nat × Nat) → Nat
  | _, [] => 0
  | offset, (value, width) :: rest =>
    ((value % 2 ^ width) <<< offset) ||| packValue (offset + width) rest

/-- `pack`: fields of (value, width), least significant bit first, the last byte filled with zeros (R50). -/
def pack (fields : List (Nat × Nat)) : List Byte :=
  leBytes (bytesFor (fields.map (·.2)).sum) (packValue 0 fields)

/-- The values of consecutive fields of the given widths, the first at stream bit `offset` of `w` (R51). -/
def unpackValues : Nat → List Nat → Nat → List Nat
  | _, [], _ => []
  | offset, width :: rest, w => slice w offset width :: unpackValues (offset + width) rest w

/-- `unpack`: the field values and the number of bytes consumed. It requires its bytes to exist (R51); where they
do not, it has no answer (93_implementation_defined.md U14). -/
def unpack (buffer : List Byte) (offset : Nat) (widths : List Nat) : Option (List Nat × Nat) :=
  let len := bytesFor widths.sum
  if len ≤ buffer.length - offset then
    some (unpackValues 0 widths (leNat ((buffer.drop offset).take len)), len)
  else none

/-! ### The instruction set table -/

/-- The opcode number of a variant (R54). -/
def Opcode.code : Opcode → Nat
  | .loadConst => 2
  | .readMem => 7
  | .writeMem => 5
  | .byteSwap => 13

/-- The variant an opcode number selects; the other twelve nibble values are illegal (R63, R64). -/
def Opcode.ofCode : Nat → Option Opcode
  | 2 => some .loadConst
  | 5 => some .writeMem
  | 7 => some .readMem
  | 13 => some .byteSwap
  | _ => none

/-- The table row of a variant: the fields after the opcode, each with its width, lowest bit first (R54). -/
def Opcode.row : Opcode → List (FieldName × Nat)
  | .loadConst => [(.address, 7), (.constant, 27)]
  | .readMem => [(.resultAddr, 7), (.sourceAddr, 7)]
  | .writeMem => [(.sourceAddr, 7), (.resultAddr, 7)]
  | .byteSwap => [(.resultAddr, 7), (.operandOffset, 12), (.resultOffset, 12), (.operandAddr, 7)]

/-- The width list the codec is given: the 4-bit opcode, then the row's (R50, R54). -/
def Opcode.widths (op : Opcode) : List Nat := 4 :: op.row.map (·.2)

/-- Total bits of an encoded instruction, opcode included and padding not (R54). -/
def Opcode.totalBits (op : Opcode) : Nat := op.widths.sum

/-- Encoded length in bytes (R55). -/
def Opcode.length (op : Opcode) : Nat := bytesFor op.totalBits

/-- Encoded length of an instruction: a function of its opcode alone (R66). -/
def Instr.length (i : Instr) : Nat := i.opcode.length

/-- The longest encoded instruction, ByteSwap's 6 bytes (00_scope.md R7). -/
def maxLength : Nat := 6

/-- The value of a named field, 0 where it is missing (R67). Where a name is given twice the first counts. -/
def fieldValue (named : List (FieldName × Nat)) (name : FieldName) : Nat := (named.lookup name).getD 0

/-! ### The decoder -/

/-- The decoder's two failures (R69); the first is also the encoder's (R67). -/
inductive DecodeError where
  /-- The opcode nibble (or the encoder's opcode tag) is not in the table (R70, R99). -/
  | unknownOpcode (opcode : Nat)
  /-- Fewer bytes remain than the opcode's length (R71, R100). -/
  | truncatedInstruction (offset needed available : Nat)
  deriving DecidableEq, Repr

/-- The opcode nibble of an instruction's first byte (R63). -/
def opcodeNibble (first : Byte) : Nat := first.toNat % 16

/-- The variant with the field values `unpack` returned, the opcode's own value skipped (R72). -/
def Opcode.build (op : Opcode) (values : List Nat) : Instr :=
  Instr.ofFields (fieldValue ((op.row.map (·.1)).zip values.tail)) op

/-- `decode(B, o)`: the instruction at offset `o` and its length, or the failure. The checks are made in the order
of R73: the opcode, then the length; `unpack` refuses exactly when fewer than `op.length` bytes remain (R71).
At or past the end of the buffer it fails as decision D14 says (R70). -/
def decode (buffer : List Byte) (offset : Nat) : Except DecodeError (Instr × Nat) :=
  match buffer.drop offset with
  | [] => .error (.truncatedInstruction offset 1 0)
  | first :: _ =>
    match Opcode.ofCode (opcodeNibble first) with
    | none => .error (.unknownOpcode (opcodeNibble first))
    | some op =>
      match unpack buffer offset op.widths with
      | none => .error (.truncatedInstruction offset op.length (buffer.length - offset))
      | some (values, len) => .ok (op.build values, len)

/-- The six bytes from `offset`, a byte past the end of the buffer being whatever `fill` supplies (R74). -/
def decodeWindowBytes (fill : Nat → Byte) (buffer : List Byte) (offset : Nat) : List Byte :=
  (List.range maxLength).map fun k => (buffer[offset + k]?).getD (fill k)

/-- The decoder as a combinational block: a function of a six-byte window and of the number of bytes available
(R74, decision D2). A failure carries offset 0, since the block does not see the offset. -/
def decodeWindow (win : List Byte) (avail : Nat) : Except DecodeError (Instr × Nat) :=
  match win with
  | [] => .error (.truncatedInstruction 0 1 0)
  | first :: _ =>
    match Opcode.ofCode (opcodeNibble first) with
    | none => .error (.unknownOpcode (opcodeNibble first))
    | some op =>
      if avail < op.length then .error (.truncatedInstruction 0 op.length avail)
      else .ok (op.build (unpackValues 0 op.widths (leNat (win.take op.length))), op.length)

/-! ### The encoder -/

/-- The (value, width) list given to `pack`: the opcode first, then the row's fields, a missing one 0 and one that
the row does not name ignored (R67). -/
def Opcode.packList (op : Opcode) (named : List (FieldName × Nat)) : List (Nat × Nat) :=
  (op.code, 4) :: op.row.map fun f => (fieldValue named f.1, f.2)

/-- `encode` of an abstract instruction (R67). Over-wide values lose their high bits, in `pack` (R68). -/
def AbstractInstr.encode (i : AbstractInstr) : Except DecodeError (List Byte) :=
  match Opcode.ofCode i.opcode with
  | none => .error (.unknownOpcode i.opcode)
  | some op => .ok (pack (op.packList i.fields))

/-- `encode` of an instruction of the table (R67). -/
def Instr.encode (i : Instr) : List Byte := pack (i.opcode.packList i.named)

/-- The instruction with every field reduced to its width (R68, R75). -/
def Instr.truncate : Instr → Instr
  | .loadConst address constant => .loadConst (address % 2 ^ 7) (constant % 2 ^ 27)
  | .readMem resultAddr sourceAddr => .readMem (resultAddr % 2 ^ 7) (sourceAddr % 2 ^ 7)
  | .writeMem sourceAddr resultAddr => .writeMem (sourceAddr % 2 ^ 7) (resultAddr % 2 ^ 7)
  | .byteSwap resultAddr operandOffset resultOffset operandAddr =>
    .byteSwap (resultAddr % 2 ^ 7) (operandOffset % 2 ^ 12) (resultOffset % 2 ^ 12) (operandAddr % 2 ^ 7)

/-! ### Words of the opcode table -/

/-- The bytes of a table word: `nbits` bits of `w`, then zeros up to the longest instruction. -/
def tableBytes (nbits w : Nat) : List Byte := leBytes maxLength (w % 2 ^ nbits)

/-- The instruction this decoder reads from a word numbered as spec/opcode_table.json numbers it. -/
def decodeTableWord (nbits w : Nat) : Option Instr :=
  match decode (tableBytes nbits w) 0 with
  | .ok (i, _) => some i
  | .error _ => none

end Sys2Proof
end

