-- ==== Sys2Proof/Config.lean ====
section
/-! DEFINITION. What the source fixes as a default and what a run may choose (00_scope.md R8).
The spec leaves no result value of an instruction open, so there is no free value here. -/

namespace Sys2Proof

/-- The default of the parameter `MEM_SIZE` (R8). A run may choose another size; the model then holds it in
`State.memSize`, and every statement is about every size unless it names this one. -/
def Config.defaultMemSize : Nat := 65536

/-- The spec's lower bound on `MEM_SIZE` (R8, decision D6). -/
def Config.minMemSize : Nat := 1

/-- The default of the parameter `PRELOAD`: no call of `load_program` (R8, decision D3). -/
def Config.defaultPreload : List (List Byte × Nat) := []

end Sys2Proof
end

