-- ==== Sys2Proof/Machine/State.lean ====
section
/-! DEFINITION. The state of the machine (10_state.md R14), the fault record (60_exceptions.md R103), the reasons a
model call can stop, and the state after reset (10_state.md R30). -/

namespace Sys2Proof.Machine

/-- What an accessor was asked to do when its address was out of range (60_exceptions.md R101, decision D11). -/
inductive AccessKind where
  | memRead
  | memWrite
  | regRead
  | regWrite
  deriving DecidableEq, Repr

/-- `OutOfBounds` as an accessor reports it to its immediate caller: the address as it was formed, and the access
kind (60_exceptions.md R101, R107). -/
structure AccessError where
  address : Nat
  kind : AccessKind
  deriving DecidableEq, Repr

/-- The stage of a fault (60_exceptions.md R103). -/
inductive Stage where
  | decode
  | execute
  deriving DecidableEq, Repr

/-- The cause of a fault (60_exceptions.md R98). -/
inductive Cause where
  | unknownOpcode
  | truncatedInstruction
  | outOfBounds
  deriving DecidableEq, Repr

/-- The cause's own data (60_exceptions.md R103; the shape is the spec's decision D11). -/
inductive FaultInfo where
  | unknownOpcode (opcode : Nat)
  | truncatedInstruction (offset needed available : Nat)
  | outOfBounds (address : Nat) (kind : AccessKind)
  deriving DecidableEq, Repr

/-- The fault record (60_exceptions.md R103). -/
structure FaultRecord where
  stage : Stage
  cause : Cause
  /-- Offset of the faulting instruction's first byte. -/
  pc : Nat
  info : FaultInfo
  deriving DecidableEq, Repr

/-- The run status (10_state.md R22): RUNNING, DONE (end of stream, success), FAULT. -/
inductive Status where
  | running
  | done
  | fault
  deriving DecidableEq, Repr

/-- Data memory: (address, byte) cells, addresses strictly rising, no cell equal to what an unlisted address reads
as (`Memory.wf`). -/
abbrev Memory := List Host.Cell

/-- The state (10_state.md R14), and with it the two parameters of a run that a step reads and no step writes. -/
structure State where
  /-- `REG`, 128 equal registers (R15, R16). -/
  regs : Vector Word 128
  /-- `MEM` (20_memory.md R31). -/
  mem : Memory
  /-- `pc`, a byte offset into the program stream (R20, R21). -/
  pc : Nat
  /-- `status` (R22). -/
  status : Status
  /-- `fault` (R23). -/
  fault : Option FaultRecord
  /-- The parameter `MEM_SIZE`, constant during a run (00_scope.md R8). -/
  memSize : Nat
  /-- The parameter `PROG`, the read-only program stream; its length is `PROG_LEN` (R28, 00_scope.md R8). -/
  prog : List Byte
  deriving DecidableEq, Repr

/-- How a call on the machine stops with a fault of the MODEL. A fault of the hardware is no such stop: it is a next
state whose status is FAULT (60_exceptions.md R104). No step and no instruction answers with this. -/
inductive Fault where
  /-- Raised by the inspection port (`State.inspect`) alone, when the host names a bad address: the host gets
  `OutOfBounds` back and the machine is not affected (60_exceptions.md R107, 70_reset_and_hazards.md R117). Safe: it
  is the spec's own answer. -/
  | hostAccess (error : AccessError)
  deriving DecidableEq, Repr

/-- How a call on the machine is refused. -/
inductive Refusal where
  /-- Raised by a refused arm of `exec` for an instruction with no meaning yet. No arm is refused: all four
  instructions have their meaning. Safe. -/
  | notModelled (mnemonic : String)
  /-- Raised by the host's ports (`State.hostLoad`, `State.inspect`) for a host action the spec gives no licence for:
  loading memory after the start, inspecting while RUNNING (70_reset_and_hazards.md R117 to R119,
  93_implementation_defined.md U12). No step raises it. Safe: nothing is claimed of such a launch. -/
  | hostOutsideLicence
  deriving DecidableEq, Repr

/-- The state after reset (10_state.md R30, 70_reset_and_hazards.md R112) with the default parameters: `pc` 0, RUNNING,
no fault, registers and memory 0 (the spec's decision D4), `MEM_SIZE` 65536, no preload, and no program supplied.
DESIGN CHOICE (log 3): with no `PROG` given the stream is empty. -/
def State.reset : State where
  regs := Vector.replicate 128 0
  mem := []
  pc := 0
  status := .running
  fault := none
  memSize := Config.defaultMemSize
  prog := []

end Sys2Proof.Machine
end

