-- ==== Sys2Proof/Machine/Ops.lean ====
section
/-! DEFINITION. The named operations on memory, registers and the engine's control state: byte order, the accessors
of 20_memory.md, `load_program`, the advance of `pc`, the end of the stream, and taking a fault. -/

namespace Sys2Proof.Machine

/-! ### Byte memory -/

/-- What an address that no cell lists reads as: the reset value of a memory byte (10_state.md R30, the spec's
decision D4). -/
def Memory.unlisted : Byte := 0

/-- The canonical form: addresses strictly rising, no cell equal to what an unlisted address reads as. -/
abbrev Memory.wf (m : Memory) : Prop :=
  m.Pairwise (fun c d => c.1 < d.1) ∧ ∀ c ∈ m, c.2 ≠ Memory.unlisted

/-- The byte at an address (20_memory.md R31). -/
def Memory.read : Memory → Nat → Byte
  | [], _ => Memory.unlisted
  | (b, v) :: rest, a => if a = b then v else Memory.read rest a

/-- No cell for `a`: it reads as an unlisted address. -/
def Memory.erase (m : Memory) (a : Nat) : Memory := m.filter fun c => c.1 != a

/-- A cell placed before the first one of a higher address. -/
def Memory.insert : Memory → Nat → Byte → Memory
  | [], a, v => [(a, v)]
  | (b, w) :: rest, a, v => if a < b then (a, v) :: (b, w) :: rest else (b, w) :: Memory.insert rest a v

/-- Write one byte (20_memory.md R31, R34), keeping the canonical form. -/
def Memory.write (m : Memory) (a : Nat) (v : Byte) : Memory :=
  if v = Memory.unlisted then m.erase a else (m.erase a).insert a v

/-! ### Byte order -/

/-- Byte `k` of a word, byte 0 the least significant (20_memory.md R32). -/
def byteOf (v : Word) (k : Nat) : Byte := v.extractLsb' (8 * k) 8

/-- The word whose bytes are, from the lowest address up, `b0`, `b1`, `b2`, `b3` (20_memory.md R32). -/
def wordOf (b0 b1 b2 b3 : Byte) : Word := b3 ++ b2 ++ b1 ++ b0

/-- The word at `a`, little-endian (20_memory.md R32). -/
def Memory.readWord (m : Memory) (a : Nat) : Word :=
  wordOf (m.read a) (m.read (a + 1)) (m.read (a + 2)) (m.read (a + 3))

/-- The four bytes of `v` stored at `a` and up, little-endian (20_memory.md R36). -/
def Memory.writeWord (m : Memory) (a : Nat) (v : Word) : Memory :=
  (((m.write a (byteOf v 0)).write (a + 1) (byteOf v 1)).write (a + 2) (byteOf v 2)).write (a + 3) (byteOf v 3)

/-- The bytes of `load_program` stored in ascending order from `a`, those at or past `size` dropped in silence
(20_memory.md R44). -/
def Memory.load (m : Memory) (size : Nat) : List Byte → Nat → Memory
  | [], _ => m
  | b :: bytes, a => Memory.load (if a < size then m.write a b else m) size bytes (a + 1)

/-! ### The accessors -/

/-- `read_byte` (20_memory.md R33). -/
def State.readByte (s : State) (a : Nat) : Except AccessError Byte :=
  if s.memSize ≤ a then .error ⟨a, .memRead⟩ else .ok (s.mem.read a)

/-- `write_byte`, masking to 8 bits (20_memory.md R34). -/
def State.writeByte (s : State) (a v : Nat) : Except AccessError State :=
  if s.memSize ≤ a then .error ⟨a, .memWrite⟩
  else .ok { s with mem := s.mem.write a (BitVec.ofNat 8 v) }

/-- `read_word`: the check is on the highest byte, as natural numbers (20_memory.md R35, R37). -/
def State.readWord (s : State) (a : Nat) : Except AccessError Word :=
  if s.memSize ≤ a + 3 then .error ⟨a, .memRead⟩ else .ok (s.mem.readWord a)

/-- `write_word`: the whole word is checked before any byte is written (20_memory.md R36, R37; the spec's decision
D10, 90_conflicts.md C5). -/
def State.writeWord (s : State) (a : Nat) (v : Word) : Except AccessError State :=
  if s.memSize ≤ a + 3 then .error ⟨a, .memWrite⟩ else .ok { s with mem := s.mem.writeWord a v }

/-- `get_register` (20_memory.md R38). From a decoded instruction the check never fails. -/
def State.getRegister (s : State) (i : Nat) : Except AccessError Word :=
  if h : i < 128 then .ok s.regs[i] else .error ⟨i, .regRead⟩

/-- `set_register`, masking to 32 bits (20_memory.md R39). From a decoded instruction the check never fails. -/
def State.setRegister (s : State) (i v : Nat) : Except AccessError State :=
  if h : i < 128 then .ok { s with regs := s.regs.set i (BitVec.ofNat 32 v) } else .error ⟨i, .regWrite⟩

/-- `load_program` (20_memory.md R44). It never raises. -/
def State.loadProgram (s : State) (bytes : List Byte) (offset : Nat) : State :=
  { s with mem := s.mem.load s.memSize bytes offset }

/-! ### The engine's control state -/

/-- The only write of `pc` in the machine: past the instruction just completed (40_engine.md R83). -/
def State.advance (s : State) (len : Nat) : State := { s with pc := s.pc + len }

/-- The end of the stream: DONE, success, no other effect (40_engine.md R77, R79). -/
def State.endOfStream (s : State) : State := { s with status := .done }

/-- The stage of a fault, which its cause settles (60_exceptions.md R98, R103). -/
def FaultInfo.stage : FaultInfo → Stage
  | .unknownOpcode _ => .decode
  | .truncatedInstruction _ _ _ => .decode
  | .outOfBounds _ _ => .execute

/-- The cause that a fault's data belongs to (60_exceptions.md R103). -/
def FaultInfo.cause : FaultInfo → Cause
  | .unknownOpcode _ => .unknownOpcode
  | .truncatedInstruction _ _ _ => .truncatedInstruction
  | .outOfBounds _ _ => .outOfBounds

/-- The spec's numeric code of a cause (60_exceptions.md R98, decision D11). -/
def Cause.code : Cause → Nat
  | .unknownOpcode => 1
  | .truncatedInstruction => 2
  | .outOfBounds => 3

/-- The record of a fault with data `info` at `pc` (60_exceptions.md R103). -/
def FaultRecord.of (pc : Nat) (info : FaultInfo) : FaultRecord := ⟨info.stage, info.cause, pc, info⟩

/-- Taking a fault: the record is written, the status becomes FAULT, and nothing else changes; `pc` keeps the offset of
the faulting instruction (60_exceptions.md R104). There is no return from it (R106). -/
def State.raise (s : State) (info : FaultInfo) : State :=
  { s with status := .fault, fault := some (FaultRecord.of s.pc info) }

/-- A decoder failure as a fault's data (40_engine.md R80). -/
def FaultInfo.ofDecode : DecodeError → FaultInfo
  | .unknownOpcode opcode => .unknownOpcode opcode
  | .truncatedInstruction offset needed available => .truncatedInstruction offset needed available

/-- An accessor's error as a fault's data (40_engine.md R82). -/
def FaultInfo.ofAccess (e : AccessError) : FaultInfo := .outOfBounds e.address e.kind

/-- The end of an instruction begun in state `s`: with its effect complete `pc` moves past its `len` bytes
(40_engine.md R83); an `OutOfBounds` becomes a fault of `s`, so the instruction leaves no effect (R82, 60_exceptions.md
R105). -/
def State.retire (s : State) (len : Nat) : Except AccessError State → Host.Outcome State Fault Refusal
  | .ok t => .next (t.advance len)
  | .error e => .next (s.raise (FaultInfo.ofAccess e))

/-- Fetch and decode at `pc`, from the program stream alone (40_engine.md R80, 20_memory.md R48). -/
def State.fetch (s : State) : Except DecodeError (Instr × Nat) := decode s.prog s.pc

end Sys2Proof.Machine
end

