-- ==== Sys2Proof/Machine/Operands.lean ====
section
/-! DEFINITION. The operand forms: register-indirect addresses (42_readmem_writemem.md R91, R92), base plus offset
addresses and the byte reversal of ByteSwap (43_byteswap.md R94 to R96). The other forms are a register index and
LoadConst's constant, used as they are (30_encoding.md R62). -/

namespace Sys2Proof.Machine

/-- Register-indirect: the whole register content as a byte address, no offset, no scaling (R91, R92). -/
def State.indirectAddress (s : State) (base : Nat) : Except AccessError Nat := do
  let b ← s.getRegister base
  return b.toNat

/-- Base plus unsigned offset: the exact sum as a natural number, not reduced modulo 2^32 (R96, the spec's decision
D9). -/
def State.offsetAddress (s : State) (base offset : Nat) : Except AccessError Nat := do
  let b ← s.getRegister base
  return b.toNat + offset

/-- Reverse the four bytes of a word (R95): `v[7:0] || v[15:8] || v[23:16] || v[31:24]`. -/
def bswap32 (v : Word) : Word := wordOf (byteOf v 3) (byteOf v 2) (byteOf v 1) (byteOf v 0)

end Sys2Proof.Machine
end

