-- ==== Sys2Proof/Machine/ByteSwap.lean ====
section
/-! DEFINITION. ByteSwap (43_byteswap.md). -/

namespace Sys2Proof.Machine

/-- The word at `x[operand_addr] + operand_offset`, its bytes reversed, is stored at
`x[result_addr] + result_offset`; the four bytes are read before any is written (R94, R97). -/
def execByteSwap (resultAddr operandOffset resultOffset operandAddr : Nat) (s : State) :
    Host.Outcome State Fault Refusal :=
  s.retire Opcode.byteSwap.length do
    let opAddr ← s.offsetAddress operandAddr operandOffset
    let resAddr ← s.offsetAddress resultAddr resultOffset
    let v ← s.readWord opAddr
    s.writeWord resAddr (bswap32 v)

end Sys2Proof.Machine
end

