-- ==== Sys2Proof/Machine/LoadConst.lean ====
section
/-! DEFINITION. LoadConst (41_loadconst.md). -/

namespace Sys2Proof.Machine

/-- `x[address] <- zext_32(constant)` (R89). -/
def execLoadConst (address constant : Nat) (s : State) : Host.Outcome State Fault Refusal :=
  s.retire Opcode.loadConst.length (s.setRegister address constant)

end Sys2Proof.Machine
end

