-- ==== Sys2Proof/Machine/ReadWrite.lean ====
section
/-! DEFINITION. ReadMem and WriteMem (42_readmem_writemem.md). -/

namespace Sys2Proof.Machine

/-- `x[result_addr] <- MemRead(x[source_addr], 4)`: the read comes before the register write (R91). -/
def execReadMem (resultAddr sourceAddr : Nat) (s : State) : Host.Outcome State Fault Refusal :=
  s.retire Opcode.readMem.length do
    let a ← s.indirectAddress sourceAddr
    let v ← s.readWord a
    s.setRegister resultAddr v.toNat

/-- `MemWrite(x[result_addr], 4, x[source_addr])` (R92). -/
def execWriteMem (sourceAddr resultAddr : Nat) (s : State) : Host.Outcome State Fault Refusal :=
  s.retire Opcode.writeMem.length do
    let v ← s.getRegister sourceAddr
    let a ← s.indirectAddress resultAddr
    s.writeWord a v

end Sys2Proof.Machine
end

