-- ==== Sys2Proof/Machine/Dispatch.lean ====
section
/-! DEFINITION. Dispatch on the instruction variant, exhaustive, with no default arm (40_engine.md R81). -/

namespace Sys2Proof.Machine

/-- The effect of one instruction: its datapath, then the advance of `pc`, or the fault it takes (40_engine.md R81 to R83). -/
def exec (i : Instr) (s : State) : Host.Outcome State Fault Refusal :=
  match i with
  | .loadConst address constant => Sys2Proof.Machine.execLoadConst address constant s
  | .readMem resultAddr sourceAddr => Sys2Proof.Machine.execReadMem resultAddr sourceAddr s
  | .writeMem sourceAddr resultAddr => Sys2Proof.Machine.execWriteMem sourceAddr resultAddr s
  | .byteSwap resultAddr operandOffset resultOffset operandAddr => Sys2Proof.Machine.execByteSwap resultAddr operandOffset resultOffset operandAddr s

end Sys2Proof.Machine
end

