-- ==== Sys2Proof/Machine/Step.lean ====
section
/-! DEFINITION. One step of the engine (40_engine.md R77, R78), and the state that runs a given word next. -/

namespace Sys2Proof.Machine

/-- One step (R78). DONE and FAULT are absorbing (R77). While RUNNING the end of the stream is tested first (R79),
then the instruction at `pc` is fetched and decoded (R80) and executed (R81 to R83). -/
def step (s : State) : Host.Outcome State Fault Refusal :=
  match s.status with
  | .done => .next s
  | .fault => .next s
  | .running =>
    if s.prog.length ≤ s.pc then .next s.endOfStream
    else
      match s.fetch with
      | .error e => .next (s.raise (FaultInfo.ofDecode e))
      | .ok (i, _) => exec i s

/-- The state with the instruction `w` in the program stream at `pc` (zeros filling any gap before it), RUNNING and
with no fault, so that the next step fetches and runs it. It stands for a launch with such a stream (log 3). -/
def State.withFetchWord (s : State) (nbits w : Nat) : State :=
  { s with
    prog := s.prog.take s.pc ++ List.replicate (s.pc - s.prog.length) 0 ++ tableBytes nbits w
      ++ s.prog.drop (s.pc + maxLength)
    status := .running
    fault := none }

end Sys2Proof.Machine
end

