-- ==== Sys2Proof/Machine/HostPort.lean ====
section
/-! DEFINITION. The host's interface (70_reset_and_hazards.md R112 to R119): launch, load port, outputs, inspection
port. A host action outside the licence is refused (93_implementation_defined.md U12). -/

namespace Sys2Proof.Machine

/-- A new execution session with the run's parameters, before any preload (R112). -/
def State.fresh (memSize : Nat) (prog : List Byte) : State :=
  { State.reset with memSize := memSize, prog := prog }

/-- The `PRELOAD` calls, in list order (R113). -/
def State.preload (s : State) : List (List Byte × Nat) → State
  | [] => s
  | (bytes, offset) :: rest => (s.loadProgram bytes offset).preload rest

/-- The state in which the engine takes its first step: reset, then the preload (R113). -/
def State.launch (memSize : Nat) (prog : List Byte) (calls : List (List Byte × Nat)) : State :=
  (State.fresh memSize prog).preload calls

/-- No step has been taken yet. DEDUCED (log 16): a step leaves RUNNING or moves `pc` up, and `pc` starts at 0. -/
abbrev State.notStarted (s : State) : Prop := s.status = .running ∧ s.pc = 0

/-- The host load port: `load_program`, open only before the first step (R118). -/
def State.hostLoad (s : State) (bytes : List Byte) (offset : Nat) : Host.Outcome State Fault Refusal :=
  if s.notStarted then .next (s.loadProgram bytes offset) else .refused .hostOutsideLicence

/-- The status and fault outputs and `pc` (R116). DESIGN CHOICE (log 22): `pc` is presented in every status, RUNNING
included; R116 does not say when it is, and R119 gives the host nothing until the end. -/
def State.report (s : State) : Status × Option FaultRecord × Nat := (s.status, s.fault, s.pc)

/-- The inspection port's answer: an accessor's result once the run has ended, `OutOfBounds` going back to the host;
not available while RUNNING (R117). -/
def State.inspect {α : Type} (s : State) (answer : Except AccessError α) : Host.Outcome α Fault Refusal :=
  match s.status, answer with
  | .running, _ => .refused .hostOutsideLicence
  | _, .ok v => .next v
  | _, .error e => .fault (.hostAccess e)

/-- `read_byte` on the inspection port (R117). -/
def State.hostReadByte (s : State) (a : Nat) : Host.Outcome Byte Fault Refusal := s.inspect (s.readByte a)

/-- `read_word` on the inspection port (R117). -/
def State.hostReadWord (s : State) (a : Nat) : Host.Outcome Word Fault Refusal := s.inspect (s.readWord a)

/-- `get_register` on the inspection port (R117). -/
def State.hostGetRegister (s : State) (i : Nat) : Host.Outcome Word Fault Refusal := s.inspect (s.getRegister i)

end Sys2Proof.Machine
end

