-- ==== Sys2Proof/Safety.lean ====
section
/-! DEFINITION. The invariant of a run, the run itself, and the words statements are written in. -/

namespace Sys2Proof.Machine

/-- What a fault record's data may be in a state with `pc` = `pc` (60_exceptions.md R103; the shape is decision D11):
an illegal nibble; an offset equal to `pc`, a length of the table and fewer bytes than it; or a memory word access
that `MEM_SIZE` does not hold. -/
def FaultInfo.ok (pc memSize : Nat) : FaultInfo → Prop
  | .unknownOpcode opcode => opcode < 16 ∧ Opcode.ofCode opcode = none
  | .truncatedInstruction offset needed available =>
    offset = pc ∧ (needed = 3 ∨ needed = 5 ∨ needed = 6) ∧ 0 < available ∧ available < needed
  | .outOfBounds address kind => memSize ≤ address + 3 ∧ (kind = .memRead ∨ kind = .memWrite)

/-- The fault field agrees with the status: a record exactly in FAULT (10_state.md R23), whose stage and cause are
those of its data and whose `pc` is the state's (60_exceptions.md R103, R104). -/
def State.faultOk (s : State) : Prop :=
  match s.fault with
  | none => s.status ≠ .fault
  | some r => s.status = .fault ∧ r = FaultRecord.of s.pc r.info ∧ r.info.ok s.pc s.memSize

/-- The invariant of every run: memory canonical and inside `MEM_SIZE`, `MEM_SIZE` at least its bound, `pc` within the
stream (10_state.md R21) and at its end in DONE, the fault field agreeing with the status. -/
structure State.Inv (s : State) : Prop where
  memCanonical : s.mem.wf
  memInside : ∀ c ∈ s.mem, c.1 < s.memSize
  memSizeBound : Config.minMemSize ≤ s.memSize
  pcInside : s.pc ≤ s.prog.length
  doneAtEnd : s.status = .done → s.pc = s.prog.length
  faultAgrees : s.faultOk

/-- The state after a step. A step always answers with one (R78), which a statement says; the other cases stand here
only so that this is total. -/
def State.afterStep (s : State) : State :=
  match step s with
  | .next t => t
  | .fault _ => s
  | .refused _ => s

/-- The state after `n` steps (40_engine.md R84). -/
def State.after : Nat → State → State
  | 0, s => s
  | n + 1, s => State.after n s.afterStep

/-- `t` is `s` but for registers and `pc`: every byte of memory, status, fault and the parameters are as in `s`. -/
def State.sameButRegsPc (s t : State) : Prop :=
  (∀ a, t.mem.read a = s.mem.read a) ∧ t.mem = s.mem ∧ t.status = s.status ∧ t.fault = s.fault ∧
    t.memSize = s.memSize ∧ t.prog = s.prog

/-- `t` is `s` but for memory and `pc`: registers, status, fault and the parameters are as in `s`. -/
def State.sameButMemPc (s t : State) : Prop :=
  t.regs = s.regs ∧ t.status = s.status ∧ t.fault = s.fault ∧ t.memSize = s.memSize ∧ t.prog = s.prog

/-- `t` is `s` with the fault of data `info` taken: registers, memory, `pc` and the parameters are as in `s`
(60_exceptions.md R104, R105). -/
def State.faultedAs (s : State) (info : FaultInfo) (t : State) : Prop :=
  t.status = .fault ∧ t.fault = some ⟨info.stage, info.cause, s.pc, info⟩ ∧ t.pc = s.pc ∧ t.regs = s.regs ∧
    t.mem = s.mem ∧ t.memSize = s.memSize ∧ t.prog = s.prog

/-- The address a decoded instruction reads memory at, if it reads memory. -/
def State.readAddress (s : State) : Instr → Except AccessError (Option Nat)
  | .readMem _ sourceAddr => (s.indirectAddress sourceAddr).map some
  | .byteSwap _ operandOffset _ operandAddr => (s.offsetAddress operandAddr operandOffset).map some
  | .loadConst _ _ => .ok none
  | .writeMem _ _ => .ok none

/-- The address a decoded instruction writes memory at, if it writes memory. -/
def State.writeAddress (s : State) : Instr → Except AccessError (Option Nat)
  | .writeMem _ resultAddr => (s.indirectAddress resultAddr).map some
  | .byteSwap resultAddr _ resultOffset _ => (s.offsetAddress resultAddr resultOffset).map some
  | .loadConst _ _ => .ok none
  | .readMem _ _ => .ok none

/-- The registers an instruction reads (R17). -/
def readsRegister : Instr → List Nat
  | .loadConst _ _ => []
  | .readMem _ sourceAddr => [sourceAddr]
  | .writeMem sourceAddr resultAddr => [sourceAddr, resultAddr]
  | .byteSwap resultAddr _ _ operandAddr => [operandAddr, resultAddr]

end Sys2Proof.Machine
end

