-- ==== Sys2Proof/Certificates/Slice0/Obligations.lean ====
section
/-! DEFINITION. The statements for the provers. Each docstring names the rule it formalises, and the log entry where it
rests on a decision that the spec marks as its own. That a fault of the hardware is a next state, wherever a statement
says that an instruction or a step takes one, is the model's choice, log 1. -/

open Sys2Proof Sys2Proof.Machine

/-! ### The codec, the encoder and the decoder -/

/-- R50: bit `j` of a field is stream bit `offset + j`, the offset being the width of all fields before it; the length is
`ceil(total_bits / 8)`; the remaining bits are zero. -/
def Obligations.PackPlacesFields : Prop :=
  ∀ fields : List (Nat × Nat),
    (pack fields).length = bytesFor (fields.map (·.2)).sum ∧
    (∀ (before after : List (Nat × Nat)) (value width : Nat), fields = before ++ (value, width) :: after →
      ∀ j, j < width → streamBit (pack fields) ((before.map (·.2)).sum + j) = value.testBit j) ∧
    (∀ k, (fields.map (·.2)).sum ≤ k → streamBit (pack fields) k = false)

/-- R52: `unpack` gives back what `pack` was given, each value reduced to its width; and (derived there) `pack` gives back
the unpacked bytes exactly when the padding bits are zero. -/
def Obligations.UnpackInvertsPack : Prop :=
  (∀ (fields : List (Nat × Nat)) (before rest : List Byte),
    unpack (before ++ pack fields ++ rest) before.length (fields.map (·.2)) =
      some (fields.map fun f => f.1 % 2 ^ f.2, (pack fields).length)) ∧
  (∀ (widths values : List Nat) (bytes : List Byte), bytes.length = bytesFor widths.sum →
    unpack bytes 0 widths = some (values, bytes.length) →
      (pack (values.zip widths) = bytes ↔ ∀ k, widths.sum ≤ k → streamBit bytes k = false))

/-- R75: every well-formed instruction, encoded anywhere in a stream, decodes to itself with its encoded length. -/
def Obligations.DecodeInvertsEncode : Prop :=
  ∀ (i : Instr) (before rest : List Byte), i.wf = true →
    decode (before ++ i.encode ++ rest) before.length = .ok (i, i.encode.length)

/-- R67, R75: an abstract instruction whose tag is in the table encodes, and decodes to the instruction with each field
reduced to its width and each missing field 0; any other tag is refused with `UnknownOpcode`. -/
def Obligations.NamedEncodeDecodes : Prop :=
  ∀ a : AbstractInstr,
    (∀ op, Opcode.ofCode a.opcode = some op → ∃ bytes, a.encode = .ok bytes ∧ ∀ before rest : List Byte,
      decode (before ++ bytes ++ rest) before.length =
        .ok ((Instr.ofFields (fieldValue a.fields) op).truncate, bytes.length)) ∧
    (a.opcode ∉ [2, 5, 7, 13] → a.encode = .error (.unknownOpcode a.opcode))

/-- R68: an over-wide value keeps only its low bits on encode, for instructions of the table and for named fields. -/
def Obligations.EncodeTruncates : Prop :=
  (∀ i : Instr, i.encode = i.truncate.encode ∧ i.truncate.wf = true) ∧
  (∀ (op : Opcode) (fields : List (FieldName × Nat)),
    (AbstractInstr.mk op.code fields).encode =
      .ok (Instr.ofFields (fieldValue fields) op).truncate.encode)

/-- R55: encoded length is `ceil((4 + sum of field widths) / 8)`: 5, 3, 3 and 6 bytes; stream bits above the last field
are zero. -/
def Obligations.EncodedLengthAndPadding : Prop :=
  (∀ op : Opcode, op.length = (4 + (op.row.map (·.2)).sum + 7) / 8) ∧
  (∀ i : Instr, i.encode.length = (match i with
      | .loadConst _ _ => 5 | .readMem _ _ => 3 | .writeMem _ _ => 3 | .byteSwap _ _ _ _ => 6)) ∧
  (∀ (i : Instr) (k : Nat), (match i with
      | .loadConst _ _ => 38 | .readMem _ _ => 18 | .writeMem _ _ => 18 | .byteSwap _ _ _ _ => 42) ≤ k →
    streamBit i.encode k = false)

/-- R64, R73: an illegal nibble fails with `UnknownOpcode` whatever follows it, and in the engine it is a decode fault that
stops the run (that its record holds the nibble is decision D11, log 13); a legal nibble whose bytes are present always
decodes, to a well-formed instruction of the variant it selects. -/
def Obligations.IllegalNibbleRefused : Prop :=
  ∀ (buffer : List Byte) (o : Nat) (h : o < buffer.length),
    (opcodeNibble buffer[o] ∉ [2, 5, 7, 13] →
      decode buffer o = .error (.unknownOpcode (opcodeNibble buffer[o])) ∧
      ∀ s : State, s.status = .running → s.prog = buffer → s.pc = o →
        ∃ t, step s = .next t ∧ s.faultedAs (.unknownOpcode (opcodeNibble buffer[o])) t) ∧
    (∀ op : Opcode, opcodeNibble buffer[o] = op.code → o + op.length ≤ buffer.length →
      ∃ i : Instr, decode buffer o = .ok (i, op.length) ∧ i.opcode = op ∧ i.wf = true)

/-- R71: with a legal nibble the decoder proceeds exactly when `o + L ≤ n`, and fails with `TruncatedInstruction`
otherwise; `L` is 5, 3, 3 or 6. -/
def Obligations.ShortInstructionTruncated : Prop :=
  ∀ (buffer : List Byte) (o : Nat) (h : o < buffer.length) (op : Opcode), opcodeNibble buffer[o] = op.code →
    ∃ L, L = (match op with | .loadConst => 5 | .readMem => 3 | .writeMem => 3 | .byteSwap => 6) ∧
      (buffer.length < o + L → decode buffer o = .error (.truncatedInstruction o L (buffer.length - o))) ∧
      (o + L ≤ buffer.length → ∃ i : Instr, decode buffer o = .ok (i, L))

/-- R72: the fields of each variant as slices of the `L` bytes read as one little-endian integer, each within its width;
the consumed length is `L`. -/
def Obligations.DecodedFieldsAreSlices : Prop :=
  ∀ (buffer : List Byte) (o : Nat) (h : o < buffer.length),
    let w := fun L => leNat ((buffer.drop o).take L)
    (opcodeNibble buffer[o] = 2 → o + 5 ≤ buffer.length →
      decode buffer o = .ok (.loadConst (slice (w 5) 4 7) (slice (w 5) 11 27), 5)) ∧
    (opcodeNibble buffer[o] = 7 → o + 3 ≤ buffer.length →
      decode buffer o = .ok (.readMem (slice (w 3) 4 7) (slice (w 3) 11 7), 3)) ∧
    (opcodeNibble buffer[o] = 5 → o + 3 ≤ buffer.length →
      decode buffer o = .ok (.writeMem (slice (w 3) 4 7) (slice (w 3) 11 7), 3)) ∧
    (opcodeNibble buffer[o] = 13 → o + 6 ≤ buffer.length →
      decode buffer o =
        .ok (.byteSwap (slice (w 6) 4 7) (slice (w 6) 11 12) (slice (w 6) 23 12) (slice (w 6) 35 7), 6)) ∧
    (∀ i len, decode buffer o = .ok (i, len) → i.wf = true)

/-- R72, R21: whatever decodes is well-formed, has its opcode's length and lies inside the buffer. -/
def Obligations.DecodedIsWellFormed : Prop :=
  ∀ (buffer : List Byte) (o : Nat) (i : Instr) (len : Nat), decode buffer o = .ok (i, len) →
    i.wf = true ∧ len = i.length ∧ o + len ≤ buffer.length

/-- R65, the spec's decision D8 (log 10): the padding bits of the last byte make no difference to the decoder. -/
def Obligations.PaddingIgnored : Prop :=
  ∀ (op : Opcode) (w : Nat) (rest : List Byte), w % 16 = op.code →
    ∃ i : Instr, decode (leBytes op.length w ++ rest) 0 = .ok (i, op.length) ∧
      decode (leBytes op.length (w % 2 ^ op.totalBits) ++ rest) 0 = .ok (i, op.length)

/-- R74 (presentation decision D2, log 21): the decoder of a six-byte window and a byte count computes `decode` on the
rest of the stream, whatever is supplied for absent bytes. -/
def Obligations.WindowDecoderAgrees : Prop :=
  ∀ (fill : Nat → Byte) (buffer : List Byte) (o : Nat), o < buffer.length →
    decodeWindow (decodeWindowBytes fill buffer o) (buffer.length - o) = decode (buffer.drop o) 0 ∧
    (∀ i len, decode buffer o = .ok (i, len) ↔ decode (buffer.drop o) 0 = .ok (i, len))

/-- The literal vectors of the source (95_test_vectors.md S1, S2, S4, and S3 as C1 corrects it). -/
def Obligations.SourceVectorsDecode : Prop :=
  decode [0xC2, 0xE7, 0x19, 0x00, 0x00] 0 = .ok (.loadConst 124 828, 5) ∧
  decode [0x47, 0x27, 0x02] 0 = .ok (.readMem 116 68, 3) ∧
  decode [0x85, 0x8B, 0x01] 0 = .ok (.writeMem 56 49, 3) ∧
  decode [0x2D, 0xFD, 0x16, 0x8E, 0x29, 0x00] 0 = .ok (.byteSwap 82 735 796 5, 6)

/-! ### Memory and registers -/

/-- R33, R34: the byte accessors, with the check of one byte; a write masks to 8 bits and changes that byte alone. -/
def Obligations.ByteAccessors : Prop :=
  ∀ (s : State) (a v : Nat),
    (s.memSize ≤ a → s.readByte a = .error ⟨a, .memRead⟩ ∧ s.writeByte a v = .error ⟨a, .memWrite⟩) ∧
    (a < s.memSize → s.readByte a = .ok (s.mem.read a) ∧ ∃ t, s.writeByte a v = .ok t ∧
      t.mem.read a = BitVec.ofNat 8 v ∧ (∀ x, x ≠ a → t.mem.read x = s.mem.read x) ∧ t = { s with mem := t.mem })

/-- R35, R37: a word read is checked at its highest byte, with no wraparound, and is otherwise the little-endian sum of
its four bytes. -/
def Obligations.ReadWordLittleEndian : Prop :=
  ∀ (s : State) (a : Nat),
    (s.memSize ≤ a + 3 → s.readWord a = .error ⟨a, .memRead⟩) ∧
    (a + 3 < s.memSize → ∃ v, s.readWord a = .ok v ∧
      v.toNat = (s.mem.read a).toNat + 2 ^ 8 * (s.mem.read (a + 1)).toNat + 2 ^ 16 * (s.mem.read (a + 2)).toNat +
        2 ^ 24 * (s.mem.read (a + 3)).toNat)

/-- R36 (the check before any byte is decision D10, log 12): a word write that fails gives no state; one that succeeds
stores bytes 0 to 3 of the value at `a` and up, changes nothing else, and reads back. -/
def Obligations.WriteWordStoresFourBytes : Prop :=
  ∀ (s : State) (a : Nat) (v : Word),
    (s.memSize ≤ a + 3 → s.writeWord a v = .error ⟨a, .memWrite⟩) ∧
    (a + 3 < s.memSize → ∃ t, s.writeWord a v = .ok t ∧ t = { s with mem := t.mem } ∧ t.readWord a = .ok v ∧
      ∀ x, t.mem.read x =
        if a ≤ x ∧ x < a + 4 then BitVec.ofNat 8 (v.toNat / 2 ^ (8 * (x - a))) else s.mem.read x)

/-- R38: registers 0 to 127 read as their content; any other index is `OutOfBounds`. -/
def Obligations.GetRegisterReads : Prop :=
  ∀ (s : State) (i : Nat), (∀ h : i < 128, s.getRegister i = .ok s.regs[i]) ∧
    (128 ≤ i → s.getRegister i = .error ⟨i, .regRead⟩)

/-- R39: `set_register` masks to 32 bits and changes register `i` alone, register 0 like any other; an index of 128 or
more is `OutOfBounds`. -/
def Obligations.SetRegisterWritesOne : Prop :=
  ∀ (s : State) (i v : Nat),
    (i < 128 → ∃ t, s.setRegister i v = .ok t ∧ t = { s with regs := t.regs } ∧
      ∀ (j : Nat) (_ : j < 128), (t.regs[j]).toNat = if j = i then v % 2 ^ 32 else (s.regs[j]).toNat) ∧
    (128 ≤ i → s.setRegister i v = .error ⟨i, .regWrite⟩)

/-- R44 (its order of bytes and calls is decision D17, log 16): `load_program` stores each byte whose address is inside
memory, drops the others, and changes nothing else. -/
def Obligations.LoadProgramBytes : Prop :=
  ∀ (s : State) (bytes : List Byte) (offset : Nat),
    s.loadProgram bytes offset = { s with mem := (s.loadProgram bytes offset).mem } ∧
    ∀ a, (s.loadProgram bytes offset).mem.read a =
      if offset ≤ a ∧ a < s.memSize then (bytes[a - offset]?).getD (s.mem.read a) else s.mem.read a

/-- R31 over the model's canonical form (log 18): a byte write keeps the form, and two canonical memories in which every
address reads the same are the same memory. -/
def Obligations.MemoryCanonicalForm : Prop :=
  (∀ (m : Memory) (a : Nat) (v : Byte), m.wf → (m.write a v).wf) ∧
  (∀ m n : Memory, m.wf → n.wf → (∀ a, m.read a = n.read a) → m = n)

/-! ### The four instructions -/

/-- R89: LoadConst completes in every state: the register gets the constant, zero-extended, `pc` moves by 5, nothing else
changes. Its encoding and its one decode fault as the rule gives them; its padding bits change nothing (decision D8,
log 10). -/
def Obligations.LoadConstSetsRegister : Prop :=
  ∀ address constant : Nat, address < 128 → constant < 2 ^ 27 →
    (∀ s : State, ∃ t, exec (.loadConst address constant) s = .next t ∧ t.pc = s.pc + 5 ∧ s.sameButRegsPc t ∧
      ∀ (j : Nat) (_ : j < 128), (t.regs[j]).toNat = if j = address then constant else (s.regs[j]).toNat) ∧
    leNat (Instr.loadConst address constant).encode = 2 + address * 2 ^ 4 + constant * 2 ^ 11 ∧
    (Instr.loadConst address constant).encode.length = 5 ∧
    (∀ n, 0 < n → n < 5 →
      decode ((Instr.loadConst address constant).encode.take n) 0 = .error (.truncatedInstruction 0 5 n)) ∧
    (∀ padding, padding < 4 → decode (leBytes 5 (2 + address * 2 ^ 4 + constant * 2 ^ 11 + padding * 2 ^ 38)) 0 =
      .ok (.loadConst address constant, 5))

/-- R91: ReadMem completes when its word is inside memory: the register gets the word at the address in `source_addr`
(read before the register is written, so the two may be the same), `pc` moves by 3, nothing else changes. -/
def Obligations.ReadMemLoadsWord : Prop :=
  ∀ (s : State) (resultAddr sourceAddr : Nat) (_ : resultAddr < 128) (_ : sourceAddr < 128),
    (s.regs[sourceAddr]).toNat + 3 < s.memSize →
    ∃ t, exec (.readMem resultAddr sourceAddr) s = .next t ∧ t.pc = s.pc + 3 ∧ s.sameButRegsPc t ∧
      ∀ (j : Nat) (_ : j < 128),
        t.regs[j] = if j = resultAddr then s.mem.readWord (s.regs[sourceAddr]).toNat else s.regs[j]

/-- R92: WriteMem completes when its word is inside memory: the four bytes of `source_addr`'s register are stored at the
address in `result_addr`'s, low byte first, `pc` moves by 3, nothing else changes. -/
def Obligations.WriteMemStoresWord : Prop :=
  ∀ (s : State) (sourceAddr resultAddr : Nat) (_ : sourceAddr < 128) (_ : resultAddr < 128),
    (s.regs[resultAddr]).toNat + 3 < s.memSize →
    ∃ t, exec (.writeMem sourceAddr resultAddr) s = .next t ∧ t.pc = s.pc + 3 ∧ s.sameButMemPc t ∧
      ∀ x, t.mem.read x =
        if (s.regs[resultAddr]).toNat ≤ x ∧ x < (s.regs[resultAddr]).toNat + 4 then
          BitVec.ofNat 8 ((s.regs[sourceAddr]).toNat / 2 ^ (8 * (x - (s.regs[resultAddr]).toNat)))
        else s.mem.read x

/-- R94, R96, R97: ByteSwap completes when both words are inside memory: `MEM[res_addr + k]` gets the OLD
`MEM[op_addr + 3 - k]`, also where the words overlap; no other byte and no register changes; `pc` moves by 6. That
`op_addr` and `res_addr` are unreduced sums, also past 2^32 in a larger memory, is decision D9, log 11. -/
def Obligations.ByteSwapReversesWord : Prop :=
  ∀ (s : State) (resultAddr operandOffset resultOffset operandAddr : Nat) (_ : resultAddr < 128)
    (_ : operandAddr < 128),
    (s.regs[operandAddr]).toNat + operandOffset + 3 < s.memSize →
    (s.regs[resultAddr]).toNat + resultOffset + 3 < s.memSize →
    ∃ t, exec (.byteSwap resultAddr operandOffset resultOffset operandAddr) s = .next t ∧ t.pc = s.pc + 6 ∧
      s.sameButMemPc t ∧
      (∀ k, k < 4 → t.mem.read ((s.regs[resultAddr]).toNat + resultOffset + k) =
        s.mem.read ((s.regs[operandAddr]).toNat + operandOffset + 3 - k)) ∧
      (∀ x, (x < (s.regs[resultAddr]).toNat + resultOffset ∨ (s.regs[resultAddr]).toNat + resultOffset + 4 ≤ x) →
        t.mem.read x = s.mem.read x)

/-- R91, R101, R103 (the address recorded is decision D11, log 13): ReadMem outside memory takes the execute fault
`OutOfBounds` of kind MemRead; no register is written. -/
def Obligations.ReadMemFaults : Prop :=
  ∀ (s : State) (resultAddr sourceAddr : Nat) (_ : resultAddr < 128) (_ : sourceAddr < 128),
    s.memSize ≤ (s.regs[sourceAddr]).toNat + 3 →
    ∃ t, exec (.readMem resultAddr sourceAddr) s = .next t ∧
      s.faultedAs (.outOfBounds (s.regs[sourceAddr]).toNat .memRead) t

/-- R92, R36, R105 (nothing is stored: decision D10, log 12; the address recorded: D11, log 13): WriteMem outside memory
takes the execute fault `OutOfBounds` of kind MemWrite. -/
def Obligations.WriteMemFaults : Prop :=
  ∀ (s : State) (sourceAddr resultAddr : Nat) (_ : sourceAddr < 128) (_ : resultAddr < 128),
    s.memSize ≤ (s.regs[resultAddr]).toNat + 3 →
    ∃ t, exec (.writeMem sourceAddr resultAddr) s = .next t ∧
      s.faultedAs (.outOfBounds (s.regs[resultAddr]).toNat .memWrite) t

/-- R94, R96, R108: ByteSwap takes the read's fault when the operand word is outside memory, whatever the result word is;
the write's fault when only the result word is outside. That the sum is tested unreduced is decision D9, log 11; that
nothing is stored D10, log 12; that the unreduced sum is what the record holds D9 and D11, log 11 and 13. -/
def Obligations.ByteSwapFaultsReadFirst : Prop :=
  ∀ (s : State) (resultAddr operandOffset resultOffset operandAddr : Nat) (_ : resultAddr < 128)
    (_ : operandAddr < 128),
    (s.memSize ≤ (s.regs[operandAddr]).toNat + operandOffset + 3 →
      ∃ t, exec (.byteSwap resultAddr operandOffset resultOffset operandAddr) s = .next t ∧
        s.faultedAs (.outOfBounds ((s.regs[operandAddr]).toNat + operandOffset) .memRead) t) ∧
    ((s.regs[operandAddr]).toNat + operandOffset + 3 < s.memSize →
      s.memSize ≤ (s.regs[resultAddr]).toNat + resultOffset + 3 →
      ∃ t, exec (.byteSwap resultAddr operandOffset resultOffset operandAddr) s = .next t ∧
        s.faultedAs (.outOfBounds ((s.regs[resultAddr]).toNat + resultOffset) .memWrite) t)

/-- R96, the spec's decision D9 (log 11; the kind and address recorded: D11, log 13): a base whose sum with its offset
passes 2^32 faults in a memory of at most 2^32 bytes, although the sum reduced modulo 2^32 may be a valid address. The
operand's sum takes the read's fault; the result's sum, the operand word being inside memory, the write's, which stores
nothing (D10, log 12). -/
def Obligations.AddressSumDoesNotWrap : Prop :=
  ∀ (s : State) (resultAddr operandOffset resultOffset operandAddr : Nat) (_ : resultAddr < 128)
    (_ : operandAddr < 128), s.memSize ≤ 2 ^ 32 →
    (operandOffset < 2 ^ 12 → 2 ^ 32 ≤ (s.regs[operandAddr]).toNat + operandOffset →
      ∃ t, exec (.byteSwap resultAddr operandOffset resultOffset operandAddr) s = .next t ∧
        t.status = .fault ∧ t.mem = s.mem ∧
        ∃ r, t.fault = some r ∧ ∃ a, r.info = .outOfBounds a .memRead ∧ 2 ^ 32 ≤ a ∧ a < 2 ^ 32 + 2 ^ 12) ∧
    (resultOffset < 2 ^ 12 → (s.regs[operandAddr]).toNat + operandOffset + 3 < s.memSize →
      2 ^ 32 ≤ (s.regs[resultAddr]).toNat + resultOffset →
      ∃ t, exec (.byteSwap resultAddr operandOffset resultOffset operandAddr) s = .next t ∧
        t.status = .fault ∧ t.mem = s.mem ∧
        ∃ r, t.fault = some r ∧ ∃ a, r.info = .outOfBounds a .memWrite ∧ 2 ^ 32 ≤ a ∧ a < 2 ^ 32 + 2 ^ 12)

/-- R95: `bswap32` is the source's formula of masks and shifts, moves byte `k` to byte `3 - k`, and (derived there) is its
own inverse. -/
def Obligations.Bswap32Formula : Prop :=
  ∀ v : Word,
    bswap32 v = ((v &&& 0xFF) <<< 24) ||| ((v &&& 0xFF00) <<< 8) ||| ((v &&& 0xFF0000) >>> 8) |||
      ((v &&& 0xFF000000) >>> 24) ∧
    (∀ k, k < 4 → byteOf (bswap32 v) k = byteOf v (3 - k)) ∧ bswap32 (bswap32 v) = v

/-- R93: after a WriteMem of `v` at `a`, any state whose bytes there are the same and in which register `q` holds `a`
reads `v` back with ReadMem; at `a + d` it reads the shifted word with the word at `a + 4` above it. -/
def Obligations.StoreThenLoad : Prop :=
  ∀ (s t u : State) (p r q x d : Nat) (_ : p < 128) (_ : r < 128) (_ : q < 128) (_ : x < 128),
    (s.regs[r]).toNat + 3 < s.memSize → exec (.writeMem p r) s = .next t →
    (∀ k, k < 4 → u.mem.read ((s.regs[r]).toNat + k) = t.mem.read ((s.regs[r]).toNat + k)) →
    d < 4 → (u.regs[q]).toNat = (s.regs[r]).toNat + d → (u.regs[q]).toNat + 3 < u.memSize →
    ∃ w, exec (.readMem x q) u = .next w ∧
      (w.regs[x]).toNat = (s.regs[p]).toNat / 2 ^ (8 * d) +
        (u.mem.readWord ((s.regs[r]).toNat + 4)).toNat % 2 ^ (8 * d) * 2 ^ (32 - 8 * d)

/-- R90: the register a LoadConst has written holds a value below 2^27, so any of bits 31:27 comes from elsewhere. -/
def Obligations.LoadConstBelowTwoTo27 : Prop :=
  ∀ (s t : State) (address constant len : Nat) (_ : address < 128), s.status = .running →
    s.fetch = .ok (.loadConst address constant, len) → step s = .next t → (t.regs[address]).toNat < 2 ^ 27

/-! ### The engine -/

/-- R78, R81: a RUNNING step inside the stream whose bytes at `pc` decode is exactly `exec` of the decoded instruction; the
step adds nothing around it (`exec` itself moves `pc`). -/
def Obligations.StepRunsDecoded : Prop :=
  ∀ (s : State) (i : Instr) (len : Nat), s.status = .running → decode s.prog s.pc = .ok (i, len) →
    step s = exec i s

/-- R78, R75: where the stream holds the encoding of a well-formed instruction at `pc`, a RUNNING step runs it. -/
def Obligations.StepRunsEncoded : Prop :=
  ∀ (s : State) (i : Instr) (before rest : List Byte), s.status = .running → i.wf = true →
    s.prog = before ++ i.encode ++ rest → s.pc = before.length → step s = exec i s

/-- R79 (its place in the step is decision D7, log 9): at the end of the stream a RUNNING step ends the run in DONE and
changes nothing else. -/
def Obligations.EndOfStreamStops : Prop :=
  ∀ s : State, s.status = .running → s.prog.length ≤ s.pc → step s = .next { s with status := .done }

/-- R80 (the data recorded is decision D11, log 13): a RUNNING step inside the stream whose decode fails takes a decode fault
with the decoder's error and the current `pc`; registers, memory and `pc` keep their values. -/
def Obligations.DecodeFaultTaken : Prop :=
  ∀ (s : State) (e : DecodeError), s.status = .running → s.pc < s.prog.length → decode s.prog s.pc = .error e →
    ∃ t, step s = .next t ∧ match e with
      | .unknownOpcode n => s.faultedAs (.unknownOpcode n) t ∧ t.fault.map (·.stage) = some .decode
      | .truncatedInstruction o n k =>
        s.faultedAs (.truncatedInstruction o n k) t ∧ t.fault.map (·.stage) = some .decode ∧ o = s.pc

/-- R77, R85, R106 (absorption is decision D16, log 16): once stopped the machine never changes, so the first fault is
neither retried, skipped nor replaced. -/
def Obligations.StoppedStaysStopped : Prop :=
  ∀ (s : State) (n : Nat), s.status ≠ .running → step s = .next s ∧ s.after n = s

/-- R78: every step, of every state, answers with a next state; so does every instruction, on any operands. That a fault of
the hardware is a next state and no fault of the model is the model's choice, log 1; what an instruction with a register
field of 128 or more does, of which R78 does not speak, is the model's choice, log 19. -/
def Obligations.StepAnswersNext : Prop :=
  (∀ s : State, ∃ t, step s = .next t) ∧ (∀ (i : Instr) (s : State), ∃ t, exec i s = .next t)

/-- R104: a step that faults writes the record, sets FAULT and keeps `pc`. R105, R49 (derived there): registers and memory are
as they were, for a write fault by decision D10, log 12. The shape of the record is decision D11, log 13. -/
def Obligations.FaultEntryIsPrecise : Prop :=
  ∀ s t : State, s.status = .running → step s = .next t → t.status = .fault →
    ∃ info, s.faultedAs info t

/-- R83: `pc` moves by the decoded instruction's length, and by that alone, exactly when the step completes an
instruction; the new `pc` is inside the stream or at its end. -/
def Obligations.PcAdvancesByLength : Prop :=
  ∀ s t : State, step s = .next t →
    (s.status = .running → t.status = .running →
      ∃ i len, s.fetch = .ok (i, len) ∧ t.pc = s.pc + len ∧ t.pc ≤ s.prog.length ∧
        len = (match i with
          | .loadConst _ _ => 5 | .readMem _ _ => 3 | .writeMem _ _ => 3 | .byteSwap _ _ _ _ => 6)) ∧
    (t.status ≠ .running → t.pc = s.pc)

/-- R108: the order of a step's tests. End of stream (that it comes before decode is decision D7, log 9); illegal nibble; too
few bytes; the memory read; the memory write (the names of the kinds are decision D11, log 13); only when all pass does the
machine stay RUNNING. -/
def Obligations.StepPriority : Prop :=
  ∀ s : State, s.status = .running → ∃ t, step s = .next t ∧
    (if h : s.pc < s.prog.length then
      if opcodeNibble s.prog[s.pc] ∉ [2, 5, 7, 13] then
        t.fault.map (·.cause) = some .unknownOpcode ∧ t.status = .fault
      else
        ∃ op : Opcode, op.code = opcodeNibble s.prog[s.pc] ∧
          if s.prog.length < s.pc + op.length then
            t.fault.map (·.cause) = some .truncatedInstruction ∧ t.status = .fault
          else
            ∃ i, decode s.prog s.pc = .ok (i, op.length) ∧ ∃ rd wr, s.readAddress i = .ok rd ∧ s.writeAddress i = .ok wr ∧
              if ∃ a, rd = some a ∧ s.memSize ≤ a + 3 then
                (∃ a, t.fault.map (·.info) = some (.outOfBounds a .memRead)) ∧ t.status = .fault
              else if ∃ a, wr = some a ∧ s.memSize ≤ a + 3 then
                (∃ a, t.fault.map (·.info) = some (.outOfBounds a .memWrite)) ∧ t.status = .fault
              else t.status = .running ∧ t.fault = s.fault
    else t.status = .done ∧ t.fault = s.fault)

/-- The invariant of a run is kept by every step (R14, R21, R23, R31, R103). Its clauses on the canonical memory list (log 18),
on the data of a fault record (decision D11, log 13) and on a `MEM_SIZE` of at least 1 (R8, decision D6, log 8) are
choices. -/
def Obligations.StepKeepsInvariant : Prop :=
  ∀ s t : State, s.Inv → step s = .next t → t.Inv

/-- The invariant of a run holds after reset (R30, R112: `pc` 0, RUNNING, no fault). That `State.reset` has the default
`MEM_SIZE` (R8) and the empty stream is the model's choice (log 3); so are the canonical memory list (log 18), empty
because memory is 0 by decision D4 (log 5), and, by decision D6 (log 8), the bound on `MEM_SIZE`. -/
def Obligations.ResetHasInvariant : Prop := State.reset.Inv

/-- The invariant of a run holds in every launch state with a `MEM_SIZE` of at least 1 (R113, R44; the bound is decision D6,
log 8; the place of the preload before the first step D3, log 6): the preload keeps the memory list canonical (the model's
choice, log 18) and inside `MEM_SIZE`. -/
def Obligations.LaunchHasInvariant : Prop :=
  ∀ (memSize : Nat) (prog : List Byte) (calls : List (List Byte × Nat)), 1 ≤ memSize →
    (State.launch memSize prog calls).Inv

/-- R84 (derived there; the step that only finds the end of the stream is decision D7, log 9): every run ends, from every
state, within one step more than a third of the bytes left. -/
def Obligations.EveryRunEnds : Prop :=
  ∀ s : State, (s.after ((s.prog.length - s.pc) / 3 + 1)).status ≠ .running

/-- R120, R84 (derived there): a launched run has ended after `PROG_LEN / 3 + 1` steps: DONE at the end of the stream with no
fault, or FAULT with a record of the offset where it stands. That the test for the end heads the step, the first one
included, is decision D7 (log 9); that `MEM_SIZE` is at least 1, D6 (log 8); the place of the preload, D3 (log 6). -/
def Obligations.LaunchedRunOutcome : Prop :=
  ∀ (memSize : Nat) (prog : List Byte) (calls : List (List Byte × Nat)), 1 ≤ memSize →
    ∃ t, t = (State.launch memSize prog calls).after (prog.length / 3 + 1) ∧
      ((t.status = .done ∧ t.fault = none ∧ t.pc = prog.length) ∨
        (t.status = .fault ∧ t.pc < prog.length ∧ ∃ r, t.fault = some r ∧ r.pc = t.pc))

/-- R14, R28, R48 (the separate stream is decision D3, log 6; the parameters as fields of State are log 2): no step changes the program stream or `MEM_SIZE`, and what a
step fetches does not depend on memory. -/
def Obligations.RunParametersFixed : Prop :=
  ∀ s t : State, step s = .next t → t.prog = s.prog ∧ t.memSize = s.memSize ∧
    ∀ m : Memory, State.fetch { t with mem := m } = decode s.prog t.pc

/-- R17: a step that changes a register is a LoadConst or a ReadMem naming it; a step that changes a byte of memory is a
WriteMem or a ByteSwap. -/
def Obligations.WhoWritesState : Prop :=
  ∀ s t : State, step s = .next t →
    (∀ (j : Nat) (_ : j < 128), t.regs[j] ≠ s.regs[j] → ∃ len, (∃ c, s.fetch = .ok (.loadConst j c, len)) ∨
      ∃ q, s.fetch = .ok (.readMem j q, len)) ∧
    (∀ a, t.mem.read a ≠ s.mem.read a → a < s.memSize ∧ ∃ len, (∃ p r, s.fetch = .ok (.writeMem p r, len)) ∨
      ∃ r o q p, s.fetch = .ok (.byteSwap r o q p, len))

/-- R17: a register an instruction does not read has no influence on what it does: changing that register beforehand
changes the state after it in that register at most. It covers register fields of 128 or more, which no decode gives, as
the model's choice in log 19 treats them. -/
def Obligations.UnreadRegisterNoInfluence : Prop :=
  ∀ (i : Instr) (s t : State) (j : Nat) (v : Word) (_ : j < 128), j ∉ readsRegister i →
    exec i s = .next t →
    ∃ u, exec i { s with regs := s.regs.set j v } = .next u ∧ u = { t with regs := u.regs } ∧
      ∀ (k : Nat) (_ : k < 128), k ≠ j → u.regs[k] = t.regs[k]

/-! ### Reset, launch and the host's ports -/

/-- R30, R112 (zero registers and memory are the spec's decision D4, log 4 and 5): the state after reset. Its parameters are
R8's defaults, the empty `PRELOAD` by decision D3 (log 6); that `State.reset` takes them, and the empty stream, is the
model's choice, log 3. -/
def Obligations.ResetState : Prop :=
  State.reset.pc = 0 ∧ State.reset.status = .running ∧ State.reset.fault = none ∧
  (∀ (i : Nat) (_ : i < 128), State.reset.regs[i] = 0) ∧ (∀ a, State.reset.mem.read a = 0) ∧
  State.reset.memSize = 65536 ∧ State.launch State.reset.memSize State.reset.prog Config.defaultPreload = State.reset

/-- R113 (the place of the preload is decision D3, log 6): a launch gives the reset state with the run's parameters, memory
being overwritten by the `PRELOAD` calls in list order. -/
def Obligations.LaunchState : Prop :=
  ∀ (memSize : Nat) (prog : List Byte) (calls : List (List Byte × Nat)) (bytes : List Byte) (offset : Nat),
    State.launch memSize prog [] = { State.reset with memSize := memSize, prog := prog } ∧
    State.launch memSize prog (calls ++ [(bytes, offset)]) =
      (State.launch memSize prog calls).loadProgram bytes offset ∧
    (State.launch memSize prog calls).notStarted ∧
    (State.launch memSize prog calls).regs = State.reset.regs ∧
    (State.launch memSize prog calls).fault = none ∧ (State.launch memSize prog calls).prog = prog ∧
    (State.launch memSize prog calls).memSize = memSize

/-- R117, R107 (closed while RUNNING by decision D16, log 16; the outcomes it answers with, log 1 and 16): after the end the inspection port answers as the accessors do,
`OutOfBounds` going to the host; while RUNNING it is refused. -/
def Obligations.InspectionPort : Prop :=
  ∀ (s : State) (a : Nat),
    (s.status = .running → s.hostReadByte a = .refused .hostOutsideLicence ∧
      s.hostReadWord a = .refused .hostOutsideLicence ∧ s.hostGetRegister a = .refused .hostOutsideLicence) ∧
    (s.status ≠ .running →
      (a < s.memSize → s.hostReadByte a = .next (s.mem.read a)) ∧
      (s.memSize ≤ a → s.hostReadByte a = .fault (.hostAccess ⟨a, .memRead⟩)) ∧
      (a + 3 < s.memSize → s.hostReadWord a = .next (s.mem.readWord a)) ∧
      (s.memSize ≤ a + 3 → s.hostReadWord a = .fault (.hostAccess ⟨a, .memRead⟩)) ∧
      (∀ h : a < 128, s.hostGetRegister a = .next s.regs[a]) ∧
      (128 ≤ a → s.hostGetRegister a = .fault (.hostAccess ⟨a, .regRead⟩)))

/-- R118 (decision D17; that RUNNING at `pc` 0 means not started is DEDUCED, log 16): the load port works before the first
step, and after any step the port is closed. -/
def Obligations.LoadPortClosesAtStart : Prop :=
  ∀ (s t : State) (bytes : List Byte) (offset : Nat),
    (s.notStarted → s.hostLoad bytes offset = .next (s.loadProgram bytes offset)) ∧
    (step s = .next t → t.hostLoad bytes offset = .refused .hostOutsideLicence)
end

