-- ==== Sys2Proof/Laws/Codec.lean ====
section
/-! SUPPORT. Byte sequences as integers, the codec, the table and the decoder: what each gives, said once. -/

namespace Sys2Proof

/-! ### Bytes and integers -/

@[simp] theorem leBytes_length (n v : Nat) : (leBytes n v).length = n := by
  induction n generalizing v with
  | zero => rfl
  | succ n ih => simp [leBytes, ih]

@[simp] theorem leNat_leBytes (n v : Nat) : leNat (leBytes n v) = v % 256 ^ n := by
  induction n generalizing v with
  | zero => simp [leBytes, leNat, Nat.mod_one]
  | succ n ih =>
    have h := Nat.mod_mul (x := v) (a := 256) (b := 256 ^ n)
    simp only [leBytes, leNat, ih, BitVec.toNat_ofNat, Nat.pow_succ']
    omega

theorem leNat_lt (bytes : List Byte) : leNat bytes < 256 ^ bytes.length := by
  induction bytes with
  | nil => simp [leNat]
  | cons b bytes ih =>
    have := b.isLt
    simp only [leNat, List.length_cons, Nat.pow_succ']
    omega

@[simp] theorem leBytes_leNat (bytes : List Byte) : leBytes bytes.length (leNat bytes) = bytes := by
  induction bytes with
  | nil => rfl
  | cons b bytes ih =>
    have := b.isLt
    simp only [leNat, List.length_cons, leBytes]
    have h1 : (b.toNat + 256 * leNat bytes) / 256 = leNat bytes := by omega
    have h2 : BitVec.ofNat 8 (b.toNat + 256 * leNat bytes) = b := by
      apply BitVec.eq_of_toNat_eq
      simp only [BitVec.toNat_ofNat]
      omega
    rw [h1, h2, ih]

/-- Two byte sequences of one length and one value are the same. -/
theorem leNat_injective {a b : List Byte} (hl : a.length = b.length) (h : leNat a = leNat b) : a = b := by
  rw [← leBytes_leNat a, ← leBytes_leNat b, hl, h]

theorem leNat_append (a b : List Byte) : leNat (a ++ b) = leNat a + 256 ^ a.length * leNat b := by
  induction a with
  | nil => simp [leNat]
  | cons c a ih =>
    simp only [List.cons_append, leNat, ih, List.length_cons, Nat.pow_succ']
    ring

/-- The opcode nibble is the low nibble of the integer (R10, R63). -/
theorem opcodeNibble_eq_leNat (bytes : List Byte) (h : 0 < bytes.length) :
    opcodeNibble bytes[0] = leNat bytes % 16 := by
  cases bytes with
  | nil => simp at h
  | cons b bytes =>
    simp only [opcodeNibble, leNat, List.getElem_cons_zero]
    omega

/-- Stream bits are the bits of the little-endian integer (R10). -/
theorem streamBit_eq_testBit (bytes : List Byte) (s : Nat) : streamBit bytes s = (leNat bytes).testBit s := by
  induction bytes generalizing s with
  | nil => simp [streamBit, leNat]
  | cons b bytes ih =>
    have hb : b.toNat < 2 ^ 8 := b.isLt
    have hcat : leNat (b :: bytes) = 2 ^ 8 * leNat bytes + b.toNat := by
      simp only [leNat]
      omega
    rw [hcat, Nat.testBit_two_pow_mul_add _ hb]
    by_cases h : s < 8
    · rw [if_pos h]
      simp [streamBit, Nat.div_eq_of_lt h, Nat.mod_eq_of_lt h, BitVec.getLsbD]
    · rw [if_neg h, ← ih]
      have h8 : s / 8 = (s - 8) / 8 + 1 := by omega
      have hm : s % 8 = (s - 8) % 8 := by omega
      simp [streamBit, h8, hm]

/-! ### Fields -/

theorem slice_lt (w lo width : Nat) : slice w lo width < 2 ^ width := Nat.mod_lt _ (Nat.two_pow_pos _)

/-- A slice below bit `bits` does not see the bits from there up. -/
theorem slice_mod (w lo width bits : Nat) (h : lo + width ≤ bits) :
    slice (w % 2 ^ bits) lo width = slice w lo width := by
  apply Nat.eq_of_testBit_eq
  intro i
  simp only [slice, Nat.testBit_mod_two_pow, Nat.testBit_shiftRight]
  grind

@[simp] theorem packValue_nil (offset : Nat) : packValue offset [] = 0 := rfl

theorem packValue_testBit_of_lt (offset : Nat) (fields : List (Nat × Nat)) (k : Nat) (h : k < offset) :
    (packValue offset fields).testBit k = false := by
  induction fields generalizing offset with
  | nil => simp [packValue]
  | cons f fields ih =>
    obtain ⟨v, w⟩ := f
    simp only [packValue, Nat.testBit_or, Nat.testBit_shiftLeft, ih (offset + w) (by omega)]
    simp [h]

/-- `pack` fills no bit above its last field. -/
theorem packValue_lt (offset : Nat) (fields : List (Nat × Nat)) :
    packValue offset fields < 2 ^ (offset + (fields.map (·.2)).sum) := by
  induction fields generalizing offset with
  | nil => simp [packValue]
  | cons f fields ih =>
    obtain ⟨v, w⟩ := f
    have hv : v % 2 ^ w < 2 ^ w := Nat.mod_lt _ (Nat.two_pow_pos _)
    simp only [packValue, List.map_cons, List.sum_cons, ← Nat.add_assoc]
    refine Nat.or_lt_two_pow ?_ (ih _)
    rw [Nat.shiftLeft_eq]
    calc v % 2 ^ w * 2 ^ offset < 2 ^ w * 2 ^ offset := Nat.mul_lt_mul_of_pos_right hv (Nat.two_pow_pos _)
      _ = 2 ^ (offset + w) := by rw [← Nat.pow_add, Nat.add_comm]
      _ ≤ 2 ^ (offset + w + (fields.map (·.2)).sum) := Nat.pow_le_pow_right (by omega) (by omega)

/-- Unpacking a packed value, also below other bits, gives each field reduced to its width. -/
theorem unpackValues_packValue (offset : Nat) (fields : List (Nat × Nat)) (low : Nat) (h : low < 2 ^ offset) :
    unpackValues offset (fields.map (·.2)) (low ||| packValue offset fields) =
      fields.map fun f => f.1 % 2 ^ f.2 := by
  induction fields generalizing offset low with
  | nil => rfl
  | cons f fields ih =>
    obtain ⟨v, w⟩ := f
    have hv : v % 2 ^ w < 2 ^ w := Nat.mod_lt _ (Nat.two_pow_pos _)
    have hlow : low ||| (v % 2 ^ w) <<< offset < 2 ^ (offset + w) := by
      refine Nat.or_lt_two_pow (h.trans_le (Nat.pow_le_pow_right (by omega) (by omega))) ?_
      rw [Nat.shiftLeft_eq, Nat.pow_add, Nat.mul_comm (2 ^ offset)]
      exact Nat.mul_lt_mul_of_pos_right hv (Nat.two_pow_pos _)
    simp only [List.map_cons, unpackValues, packValue, List.cons.injEq]
    refine ⟨?_, by rw [← Nat.or_assoc]; exact ih _ _ hlow⟩
    apply Nat.eq_of_testBit_eq
    intro i
    simp only [slice, Nat.testBit_mod_two_pow, Nat.testBit_shiftRight, Nat.testBit_or, Nat.testBit_shiftLeft]
    by_cases hi : i < w
    · rw [packValue_testBit_of_lt _ _ _ (by omega : offset + i < offset + w),
        Nat.testBit_lt_two_pow (h.trans_le (Nat.pow_le_pow_right (by omega) (by omega)))]
      simp [hi]
    · simp [hi]

/-- Unpacking sees no bit above the last field. -/
theorem unpackValues_mod (offset : Nat) (widths : List Nat) (w bits : Nat) (h : offset + widths.sum ≤ bits) :
    unpackValues offset widths (w % 2 ^ bits) = unpackValues offset widths w := by
  induction widths generalizing offset with
  | nil => rfl
  | cons a widths ih =>
    simp only [List.sum_cons] at h
    simp only [unpackValues, slice_mod w offset a bits (by omega), ih (offset + a) (by omega)]

@[simp] theorem pack_length (fields : List (Nat × Nat)) :
    (pack fields).length = bytesFor (fields.map (·.2)).sum := by simp [pack]

theorem two_pow_le_256_pow_bytesFor (bits : Nat) : 2 ^ bits ≤ 256 ^ bytesFor bits := by
  rw [show (256 : Nat) = 2 ^ 8 from rfl, ← Nat.pow_mul]
  exact Nat.pow_le_pow_right (by omega) (by unfold bytesFor; omega)

/-- The integer that `pack`'s bytes spell (R50). -/
@[simp] theorem leNat_pack (fields : List (Nat × Nat)) : leNat (pack fields) = packValue 0 fields := by
  rw [pack, leNat_leBytes]
  refine Nat.mod_eq_of_lt ((packValue_lt 0 fields).trans_le ?_)
  simpa using two_pow_le_256_pow_bytesFor (fields.map (·.2)).sum

/-- What `unpack` answers, when it answers. -/
theorem unpack_eq_some {buffer : List Byte} {o : Nat} {widths values : List Nat} {len : Nat} :
    unpack buffer o widths = some (values, len) ↔
      len = bytesFor widths.sum ∧ len ≤ buffer.length - o ∧
        values = unpackValues 0 widths (leNat ((buffer.drop o).take len)) := by
  simp only [unpack]
  split
  · simp only [Option.some.injEq, Prod.mk.injEq]
    constructor
    · rintro ⟨rfl, rfl⟩; exact ⟨rfl, by assumption, rfl⟩
    · rintro ⟨rfl, _, rfl⟩; exact ⟨rfl, rfl⟩
  · simp only [reduceCtorEq, false_iff]
    rintro ⟨rfl, h, _⟩
    contradiction

/-- `unpack` refuses exactly a buffer with too few bytes (R51, U14). -/
theorem unpack_eq_none {buffer : List Byte} {o : Nat} {widths : List Nat} :
    unpack buffer o widths = none ↔ buffer.length - o < bytesFor widths.sum := by
  simp [unpack]

/-! ### The table -/

theorem Opcode.ofCode_code (op : Opcode) : Opcode.ofCode op.code = some op := by cases op <;> rfl

/-- The table as the decoder reads it: a number selects a variant exactly when it is that variant's (R63). -/
theorem Opcode.ofCode_eq_some {n : Nat} {op : Opcode} : Opcode.ofCode n = some op ↔ n = op.code := by
  refine ⟨fun h => ?_, fun h => h ▸ ofCode_code op⟩
  unfold ofCode at h
  split at h <;> simp_all <;> subst h <;> rfl

/-- The numbers that are no opcode (R64). -/
theorem Opcode.ofCode_eq_none {n : Nat} : Opcode.ofCode n = none ↔ n ∉ [2, 5, 7, 13] := by
  unfold ofCode
  split <;> simp_all

@[simp] theorem Opcode.length_loadConst : Opcode.loadConst.length = 5 := rfl
@[simp] theorem Opcode.length_readMem : Opcode.readMem.length = 3 := rfl
@[simp] theorem Opcode.length_writeMem : Opcode.writeMem.length = 3 := rfl
@[simp] theorem Opcode.length_byteSwap : Opcode.byteSwap.length = 6 := rfl

@[simp] theorem Instr.length_loadConst (a c : Nat) : (Instr.loadConst a c).length = 5 := Opcode.length_loadConst
@[simp] theorem Instr.length_readMem (r q : Nat) : (Instr.readMem r q).length = 3 := Opcode.length_readMem
@[simp] theorem Instr.length_writeMem (p r : Nat) : (Instr.writeMem p r).length = 3 := Opcode.length_writeMem
@[simp] theorem Instr.length_byteSwap (r o q p : Nat) : (Instr.byteSwap r o q p).length = 6 := Opcode.length_byteSwap

theorem Opcode.length_pos (op : Opcode) : 3 ≤ op.length := by cases op <;> simp

theorem Opcode.length_le (op : Opcode) : op.length ≤ maxLength := by cases op <;> decide

theorem Opcode.length_cases (op : Opcode) : op.length = 3 ∨ op.length = 5 ∨ op.length = 6 := by
  cases op <;> simp

theorem Opcode.code_lt (op : Opcode) : op.code < 16 := by cases op <;> decide

theorem opcodeNibble_lt (b : Byte) : opcodeNibble b < 16 := Nat.mod_lt _ (by omega)

@[simp] theorem Opcode.opcode_ofFields (f : FieldName → Nat) (op : Opcode) : (Instr.ofFields f op).opcode = op := by
  cases op <;> rfl

/-- The fields of an instruction, by name, give it back. -/
theorem Instr.ofFields_named (i : Instr) : Instr.ofFields (fieldValue i.named) i.opcode = i := by cases i <;> rfl

/-- The instruction a variant and the slices of `w` make, field by field (R72). -/
theorem Opcode.build_unpackValues (op : Opcode) (w : Nat) :
    op.build (unpackValues 0 op.widths w) = (match op with
      | .loadConst => .loadConst (slice w 4 7) (slice w 11 27)
      | .readMem => .readMem (slice w 4 7) (slice w 11 7)
      | .writeMem => .writeMem (slice w 4 7) (slice w 11 7)
      | .byteSwap => .byteSwap (slice w 4 7) (slice w 11 12) (slice w 23 12) (slice w 35 7)) := by
  cases op <;> rfl

/-- The instruction built from the slices is well-formed (R72). -/
theorem Opcode.build_wf (op : Opcode) (w : Nat) : (op.build (unpackValues 0 op.widths w)).wf = true := by
  rw [build_unpackValues]
  have h7 := fun lo => slice_lt w lo 7
  have h12 := fun lo => slice_lt w lo 12
  have h27 := slice_lt w 11 27
  cases op <;> simp only [Instr.wf, wfReg, wfConstant, wfOffset, h7, h12, h27, decide_true, Bool.and_self]

@[simp] theorem Opcode.opcode_build (op : Opcode) (values : List Nat) : (op.build values).opcode = op := by
  simp [build]

/-- What `pack` was given comes back as the instruction with its fields reduced (R75). -/
theorem Opcode.build_packList (op : Opcode) (named : List (FieldName × Nat)) :
    op.build ((op.packList named).map fun f => f.1 % 2 ^ f.2) = (Instr.ofFields (fieldValue named) op).truncate := by
  cases op <;> rfl

@[simp] theorem Opcode.packList_widths (op : Opcode) (named : List (FieldName × Nat)) :
    (op.packList named).map (·.2) = op.widths := by
  cases op <;> rfl

theorem Instr.truncate_of_wf {i : Instr} (h : i.wf = true) : i.truncate = i := by
  cases i <;> simp only [wf, wfReg, wfConstant, wfOffset, Bool.and_eq_true, decide_eq_true_eq] at h <;>
    simp [truncate] <;> omega

theorem Instr.truncate_wf (i : Instr) : i.truncate.wf = true := by
  cases i <;> simp [truncate, wf, wfReg, wfConstant, wfOffset, Nat.mod_lt]

/-! ### The decoder -/

/-- Inside the buffer the decoder decides by the nibble, then by the length, and gives the slices (R69, R73). -/
theorem decode_inside (buffer : List Byte) (o : Nat) (h : o < buffer.length) :
    decode buffer o = match Opcode.ofCode (opcodeNibble buffer[o]) with
      | none => .error (.unknownOpcode (opcodeNibble buffer[o]))
      | some op =>
        if buffer.length - o < op.length then
          .error (.truncatedInstruction o op.length (buffer.length - o))
        else .ok (op.build (unpackValues 0 op.widths (leNat ((buffer.drop o).take op.length))), op.length) := by
  unfold decode
  rw [List.drop_eq_getElem_cons h]
  simp only
  cases hop : Opcode.ofCode (opcodeNibble buffer[o]) with
  | none => rfl
  | some op =>
    simp only [unpack]
    by_cases hl : buffer.length - o < op.length
    · rw [if_pos hl, if_neg (by simpa [Opcode.length, Opcode.totalBits] using hl)]
    · rw [if_neg hl, if_pos (by simpa [Opcode.length, Opcode.totalBits] using hl),
        ← List.drop_eq_getElem_cons h]
      rfl

/-- Past the end the decoder fails as decision D14 says. -/
theorem decode_outside (buffer : List Byte) (o : Nat) (h : buffer.length ≤ o) :
    decode buffer o = .error (.truncatedInstruction o 1 0) := by
  unfold decode
  rw [List.drop_eq_nil_of_le h]

/-- Everything a successful decode says. -/
theorem decode_eq_ok {buffer : List Byte} {o : Nat} {i : Instr} {len : Nat} (h : decode buffer o = .ok (i, len)) :
    ∃ (ho : o < buffer.length) (op : Opcode), opcodeNibble buffer[o] = op.code ∧ len = op.length ∧
      o + len ≤ buffer.length ∧ i.opcode = op ∧ i.wf = true ∧
      i = op.build (unpackValues 0 op.widths (leNat ((buffer.drop o).take len))) := by
  by_cases ho : o < buffer.length
  · refine ⟨ho, ?_⟩
    rw [decode_inside _ _ ho] at h
    split at h
    · cases h
    next op hop =>
      split at h
      · cases h
      next hl =>
        cases h
        exact ⟨op, Opcode.ofCode_eq_some.1 hop, rfl, by omega, by simp, op.build_wf _, rfl⟩
  · rw [decode_outside _ _ (by omega)] at h
    cases h

/-- Everything a failed decode inside the buffer says. -/
theorem decode_eq_error {buffer : List Byte} {o : Nat} {e : DecodeError} (ho : o < buffer.length)
    (h : decode buffer o = .error e) :
    (e = .unknownOpcode (opcodeNibble buffer[o]) ∧ Opcode.ofCode (opcodeNibble buffer[o]) = none) ∨
      ∃ op : Opcode, opcodeNibble buffer[o] = op.code ∧ buffer.length - o < op.length ∧
        e = .truncatedInstruction o op.length (buffer.length - o) := by
  rw [decode_inside _ _ ho] at h
  split at h
  next hop => cases h; exact .inl ⟨rfl, hop⟩
  next op hop =>
    split at h
    next hl => cases h; exact .inr ⟨op, Opcode.ofCode_eq_some.1 hop, hl, rfl⟩
    · cases h

end Sys2Proof
end

