-- ==== Sys2Proof/Laws/Memory.lean ====
section
/-! SUPPORT. The byte memory: a write is seen at its address and nowhere else, whatever list holds the memory, and every
operation keeps the canonical form. -/

namespace Sys2Proof.Machine

@[simp] theorem Memory.read_nil (a : Nat) : Memory.read [] a = Memory.unlisted := rfl

/-- The memory after reset, with nothing listed, is canonical. -/
theorem Memory.wf_nil : Memory.wf [] := ⟨List.Pairwise.nil, fun _ h => absurd h (List.not_mem_nil)⟩

theorem Memory.read_cons (b : Nat) (v : Byte) (m : Memory) (a : Nat) :
    Memory.read ((b, v) :: m) a = if a = b then v else m.read a := rfl

/-- An address no cell lists reads as an unlisted one. -/
theorem Memory.read_of_not_mem (m : Memory) (a : Nat) (h : ∀ c ∈ m, c.1 ≠ a) : m.read a = Memory.unlisted := by
  induction m with
  | nil => rfl
  | cons c m ih =>
    obtain ⟨b, v⟩ := c
    rw [read_cons, if_neg fun e => h (b, v) (by simp) e.symm]
    exact ih fun c hc => h c (by simp [hc])

theorem Memory.mem_erase {m : Memory} {a : Nat} {c : Host.Cell} : c ∈ m.erase a ↔ c ∈ m ∧ c.1 ≠ a := by
  simp [Memory.erase]

theorem Memory.read_erase (m : Memory) (a x : Nat) :
    (m.erase a).read x = if x = a then Memory.unlisted else m.read x := by
  split
  next h => exact read_of_not_mem _ _ fun c hc => by rw [h]; exact (mem_erase.1 hc).2
  next h =>
    induction m with
    | nil => rfl
    | cons c m ih =>
      obtain ⟨b, v⟩ := c
      rw [read_cons, ← ih]
      by_cases hb : b = a
      · simp [Memory.erase, hb, h]
      · simp [Memory.erase, hb, read_cons]

theorem Memory.mem_insert {m : Memory} {a : Nat} {v : Byte} {c : Host.Cell} :
    c ∈ m.insert a v ↔ c = (a, v) ∨ c ∈ m := by
  induction m with
  | nil => simp [Memory.insert]
  | cons d m ih =>
    obtain ⟨b, w⟩ := d
    by_cases h : a < b
    · simp [Memory.insert, h]
    · simp only [Memory.insert, h, if_false, List.mem_cons, ih]
      tauto

theorem Memory.read_insert (m : Memory) (a x : Nat) (v : Byte) (h : ∀ c ∈ m, c.1 ≠ a) :
    (m.insert a v).read x = if x = a then v else m.read x := by
  induction m with
  | nil => rfl
  | cons d m ih =>
    obtain ⟨b, w⟩ := d
    have hb : b ≠ a := h (b, w) (by simp)
    by_cases hab : a < b
    · simp [Memory.insert, hab, read_cons]
    · simp only [Memory.insert, hab, if_false, read_cons, ih fun c hc => h c (by simp [hc])]
      grind

/-- Read after write: the value at the address written, the old byte at every other. -/
@[simp] theorem Memory.read_write (m : Memory) (a x : Nat) (v : Byte) :
    (m.write a v).read x = if x = a then v else m.read x := by
  unfold Memory.write
  split
  next h => rw [read_erase, h]
  next h =>
    rw [read_insert _ _ _ _ fun c hc => (mem_erase.1 hc).2, read_erase]
    grind

/-- A cell of the memory after a write is the one written or an old one. -/
theorem Memory.mem_write {m : Memory} {a : Nat} {v : Byte} {c : Host.Cell} (h : c ∈ m.write a v) :
    c = (a, v) ∨ c ∈ m := by
  unfold Memory.write at h
  split at h
  · exact .inr (mem_erase.1 h).1
  · exact (mem_insert.1 h).imp_right fun h => (mem_erase.1 h).1

theorem Memory.wf_erase {m : Memory} (a : Nat) (h : m.wf) : (m.erase a).wf :=
  ⟨h.1.filter _, fun c hc => h.2 c (mem_erase.1 hc).1⟩

theorem Memory.wf_insert {m : Memory} {a : Nat} {v : Byte} (h : m.wf) (hv : v ≠ Memory.unlisted)
    (ha : ∀ c ∈ m, c.1 ≠ a) : (m.insert a v).wf := by
  refine ⟨?_, fun c hc => (mem_insert.1 hc).elim (fun e => by rw [e]; exact hv) (h.2 c)⟩
  induction m with
  | nil => simp [Memory.insert]
  | cons d m ih =>
    obtain ⟨b, w⟩ := d
    have hp := List.pairwise_cons.1 h.1
    have hb : b ≠ a := ha (b, w) (by simp)
    by_cases hab : a < b
    · simp only [Memory.insert, hab, if_true]
      refine List.pairwise_cons.2 ⟨fun c hc => ?_, h.1⟩
      rcases List.mem_cons.1 hc with rfl | hc
      · exact hab
      · exact hab.trans (hp.1 c hc)
    · simp only [Memory.insert, hab, if_false]
      refine List.pairwise_cons.2 ⟨fun c hc => ?_,
        ih ⟨hp.2, fun c hc => h.2 c (by simp [hc])⟩ fun c hc => ha c (by simp [hc])⟩
      rcases mem_insert.1 hc with rfl | hc
      · show b < a
        omega
      · exact hp.1 c hc

/-- A byte write keeps the canonical form. -/
theorem Memory.wf_write {m : Memory} (a : Nat) (v : Byte) (h : m.wf) : (m.write a v).wf := by
  unfold Memory.write
  split
  · exact wf_erase a h
  next hv => exact wf_insert (wf_erase a h) hv fun c hc => (mem_erase.1 hc).2

/-- A word write keeps the canonical form. -/
theorem Memory.wf_writeWord {m : Memory} (a : Nat) (v : Word) (h : m.wf) : (m.writeWord a v).wf :=
  wf_write _ _ (wf_write _ _ (wf_write _ _ (wf_write _ _ h)))

/-- The bytes after a word write: the four bytes of the word, the old byte everywhere else. -/
theorem Memory.read_writeWord (m : Memory) (a x : Nat) (v : Word) :
    (m.writeWord a v).read x = if a ≤ x ∧ x < a + 4 then byteOf v (x - a) else m.read x := by
  simp only [Memory.writeWord, read_write]
  by_cases h0 : x = a
  · subst h0; simp
  by_cases h1 : x = a + 1
  · subst h1; simp
  by_cases h2 : x = a + 2
  · subst h2; simp
  by_cases h3 : x = a + 3
  · subst h3; simp
  · rw [if_neg h3, if_neg h2, if_neg h1, if_neg h0, if_neg (by omega)]

/-- A cell of the memory after a word write lies in the word or is an old one. -/
theorem Memory.mem_writeWord {m : Memory} {a : Nat} {v : Word} {c : Host.Cell} (h : c ∈ m.writeWord a v) :
    c.1 < a + 4 ∨ c ∈ m := by
  simp only [Memory.writeWord] at h
  rcases mem_write h with rfl | h
  · exact .inl (by simp)
  rcases mem_write h with rfl | h
  · exact .inl (by simp)
  rcases mem_write h with rfl | h
  · exact .inl (by simp)
  rcases mem_write h with rfl | h
  · exact .inl (by simp)
  · exact .inr h

/-- `load_program` keeps the canonical form. -/
theorem Memory.wf_load {m : Memory} (size : Nat) (bytes : List Byte) (a : Nat) (h : m.wf) :
    (m.load size bytes a).wf := by
  induction bytes generalizing m a with
  | nil => exact h
  | cons b bytes ih =>
    rw [Memory.load]
    split
    · exact ih _ (wf_write _ _ h)
    · exact ih _ h

/-- `load_program` lists no address outside memory. -/
theorem Memory.load_inside {m : Memory} (size : Nat) (bytes : List Byte) (a : Nat) (h : ∀ c ∈ m, c.1 < size) :
    ∀ c ∈ m.load size bytes a, c.1 < size := by
  induction bytes generalizing m a with
  | nil => exact h
  | cons b bytes ih =>
    rw [Memory.load]
    split
    next ha => exact ih _ fun c hc => (mem_write hc).elim (fun e => by rw [e]; exact ha) (h c)
    · exact ih _ h

/-- A word whose bytes are read from memory, byte by byte. -/
theorem byteOf_wordOf (b0 b1 b2 b3 : Byte) :
    byteOf (wordOf b0 b1 b2 b3) 0 = b0 ∧ byteOf (wordOf b0 b1 b2 b3) 1 = b1 ∧
      byteOf (wordOf b0 b1 b2 b3) 2 = b2 ∧ byteOf (wordOf b0 b1 b2 b3) 3 = b3 := by
  refine ⟨?_, ?_, ?_, ?_⟩ <;>
  · apply BitVec.eq_of_getLsbD_eq
    intro i hi
    simp only [byteOf, wordOf, BitVec.getLsbD_extractLsb', BitVec.getLsbD_append]
    grind

/-- The word of the four bytes of a word is the word. -/
theorem wordOf_byteOf (v : Word) : wordOf (byteOf v 0) (byteOf v 1) (byteOf v 2) (byteOf v 3) = v := by
  apply BitVec.eq_of_getLsbD_eq
  intro i hi
  simp only [byteOf, wordOf, BitVec.getLsbD_extractLsb', BitVec.getLsbD_append]
  grind

/-- The value of a word is the little-endian sum of its bytes. -/
theorem wordOf_toNat (b0 b1 b2 b3 : Byte) :
    (wordOf b0 b1 b2 b3).toNat = b0.toNat + 2 ^ 8 * b1.toNat + 2 ^ 16 * b2.toNat + 2 ^ 24 * b3.toNat := by
  have h0 := b0.isLt
  have h1 := b1.isLt
  have h2 := b2.isLt
  have h3 := b3.isLt
  simp only [wordOf, BitVec.toNat_append]
  rw [← Nat.shiftLeft_add_eq_or_of_lt h0, ← Nat.shiftLeft_add_eq_or_of_lt h1, ← Nat.shiftLeft_add_eq_or_of_lt h2]
  simp only [Nat.shiftLeft_eq]
  omega

/-- Byte `k` of a word as a number. -/
theorem byteOf_eq (v : Word) (k : Nat) : byteOf v k = BitVec.ofNat 8 (v.toNat / 2 ^ (8 * k)) := by
  apply BitVec.eq_of_toNat_eq
  simp [byteOf, Nat.shiftRight_eq_div_pow]

/-- The word read back after a word write of the same address. -/
theorem Memory.readWord_writeWord (m : Memory) (a : Nat) (v : Word) : (m.writeWord a v).readWord a = v := by
  simp only [Memory.readWord, read_writeWord]
  simp [wordOf_byteOf]

end Sys2Proof.Machine
end

