-- ==== Sys2Proof/Laws/State.lean ====
section
/-! SUPPORT. Each field of the state under each update of it: true by rfl, so that no proof unfolds an update. -/

namespace Sys2Proof.Machine

@[simp] theorem State.advance_regs (s : State) (n : Nat) : (s.advance n).regs = s.regs := rfl
@[simp] theorem State.advance_mem (s : State) (n : Nat) : (s.advance n).mem = s.mem := rfl
@[simp] theorem State.advance_pc (s : State) (n : Nat) : (s.advance n).pc = s.pc + n := rfl
@[simp] theorem State.advance_status (s : State) (n : Nat) : (s.advance n).status = s.status := rfl
@[simp] theorem State.advance_fault (s : State) (n : Nat) : (s.advance n).fault = s.fault := rfl
@[simp] theorem State.advance_memSize (s : State) (n : Nat) : (s.advance n).memSize = s.memSize := rfl
@[simp] theorem State.advance_prog (s : State) (n : Nat) : (s.advance n).prog = s.prog := rfl

@[simp] theorem State.endOfStream_regs (s : State) : s.endOfStream.regs = s.regs := rfl
@[simp] theorem State.endOfStream_mem (s : State) : s.endOfStream.mem = s.mem := rfl
@[simp] theorem State.endOfStream_pc (s : State) : s.endOfStream.pc = s.pc := rfl
@[simp] theorem State.endOfStream_status (s : State) : s.endOfStream.status = .done := rfl
@[simp] theorem State.endOfStream_fault (s : State) : s.endOfStream.fault = s.fault := rfl
@[simp] theorem State.endOfStream_memSize (s : State) : s.endOfStream.memSize = s.memSize := rfl
@[simp] theorem State.endOfStream_prog (s : State) : s.endOfStream.prog = s.prog := rfl

@[simp] theorem State.raise_regs (s : State) (i : FaultInfo) : (s.raise i).regs = s.regs := rfl
@[simp] theorem State.raise_mem (s : State) (i : FaultInfo) : (s.raise i).mem = s.mem := rfl
@[simp] theorem State.raise_pc (s : State) (i : FaultInfo) : (s.raise i).pc = s.pc := rfl
@[simp] theorem State.raise_status (s : State) (i : FaultInfo) : (s.raise i).status = .fault := rfl
@[simp] theorem State.raise_fault (s : State) (i : FaultInfo) :
    (s.raise i).fault = some (FaultRecord.of s.pc i) := rfl
@[simp] theorem State.raise_memSize (s : State) (i : FaultInfo) : (s.raise i).memSize = s.memSize := rfl
@[simp] theorem State.raise_prog (s : State) (i : FaultInfo) : (s.raise i).prog = s.prog := rfl

@[simp] theorem FaultRecord.of_stage (pc : Nat) (i : FaultInfo) : (FaultRecord.of pc i).stage = i.stage := rfl
@[simp] theorem FaultRecord.of_cause (pc : Nat) (i : FaultInfo) : (FaultRecord.of pc i).cause = i.cause := rfl
@[simp] theorem FaultRecord.of_pc (pc : Nat) (i : FaultInfo) : (FaultRecord.of pc i).pc = pc := rfl
@[simp] theorem FaultRecord.of_info (pc : Nat) (i : FaultInfo) : (FaultRecord.of pc i).info = i := rfl

@[simp] theorem State.loadProgram_regs (s : State) (b : List Byte) (o : Nat) : (s.loadProgram b o).regs = s.regs := rfl
@[simp] theorem State.loadProgram_mem (s : State) (b : List Byte) (o : Nat) :
    (s.loadProgram b o).mem = s.mem.load s.memSize b o := rfl
@[simp] theorem State.loadProgram_pc (s : State) (b : List Byte) (o : Nat) : (s.loadProgram b o).pc = s.pc := rfl
@[simp] theorem State.loadProgram_status (s : State) (b : List Byte) (o : Nat) :
    (s.loadProgram b o).status = s.status := rfl
@[simp] theorem State.loadProgram_fault (s : State) (b : List Byte) (o : Nat) :
    (s.loadProgram b o).fault = s.fault := rfl
@[simp] theorem State.loadProgram_memSize (s : State) (b : List Byte) (o : Nat) :
    (s.loadProgram b o).memSize = s.memSize := rfl
@[simp] theorem State.loadProgram_prog (s : State) (b : List Byte) (o : Nat) : (s.loadProgram b o).prog = s.prog := rfl

@[simp] theorem State.fresh_memSize (n : Nat) (p : List Byte) : (State.fresh n p).memSize = n := rfl
@[simp] theorem State.fresh_prog (n : Nat) (p : List Byte) : (State.fresh n p).prog = p := rfl
@[simp] theorem State.fresh_regs (n : Nat) (p : List Byte) : (State.fresh n p).regs = State.reset.regs := rfl
@[simp] theorem State.fresh_mem (n : Nat) (p : List Byte) : (State.fresh n p).mem = [] := rfl
@[simp] theorem State.fresh_pc (n : Nat) (p : List Byte) : (State.fresh n p).pc = 0 := rfl
@[simp] theorem State.fresh_status (n : Nat) (p : List Byte) : (State.fresh n p).status = .running := rfl
@[simp] theorem State.fresh_fault (n : Nat) (p : List Byte) : (State.fresh n p).fault = none := rfl

/-- What the preload changes: memory, and nothing else. -/
theorem State.preload_frame (s : State) (calls : List (List Byte × Nat)) :
    s.preload calls = { s with mem := (s.preload calls).mem } := by
  induction calls generalizing s with
  | nil => rfl
  | cons c rest ih => rw [State.preload, ih]; rfl

end Sys2Proof.Machine
end

