-- ==== Sys2Proof/Laws/Ops.lean ====
section
/-! SUPPORT. Each accessor and each instruction: everything it can do, said once. -/

namespace Sys2Proof.Machine

/-! ### Accessors -/

theorem State.getRegister_of_lt (s : State) {i : Nat} (h : i < 128) : s.getRegister i = .ok s.regs[i] := by
  simp [getRegister, h]

theorem State.getRegister_of_ge (s : State) {i : Nat} (h : 128 ≤ i) : s.getRegister i = .error ⟨i, .regRead⟩ := by
  simp [getRegister, show ¬ i < 128 by omega]

theorem State.setRegister_of_lt (s : State) {i : Nat} (v : Nat) (h : i < 128) :
    s.setRegister i v = .ok { s with regs := s.regs.set i (BitVec.ofNat 32 v) } := by
  simp [setRegister, h]

theorem State.setRegister_of_ge (s : State) {i : Nat} (v : Nat) (h : 128 ≤ i) :
    s.setRegister i v = .error ⟨i, .regWrite⟩ := by
  simp [setRegister, show ¬ i < 128 by omega]

theorem State.indirectAddress_of_lt (s : State) {i : Nat} (h : i < 128) :
    s.indirectAddress i = .ok (s.regs[i]).toNat := by
  rw [indirectAddress, s.getRegister_of_lt h]; rfl

theorem State.offsetAddress_of_lt (s : State) {i : Nat} (offset : Nat) (h : i < 128) :
    s.offsetAddress i offset = .ok ((s.regs[i]).toNat + offset) := by
  rw [offsetAddress, s.getRegister_of_lt h]; rfl

theorem State.readWord_inside (s : State) {a : Nat} (h : a + 3 < s.memSize) : s.readWord a = .ok (s.mem.readWord a) := by
  simp [readWord, show ¬ s.memSize ≤ a + 3 by omega]

theorem State.readWord_outside (s : State) {a : Nat} (h : s.memSize ≤ a + 3) :
    s.readWord a = .error ⟨a, .memRead⟩ := by
  simp [readWord, h]

theorem State.writeWord_inside (s : State) {a : Nat} (v : Word) (h : a + 3 < s.memSize) :
    s.writeWord a v = .ok { s with mem := s.mem.writeWord a v } := by
  simp [writeWord, show ¬ s.memSize ≤ a + 3 by omega]

theorem State.writeWord_outside (s : State) {a : Nat} (v : Word) (h : s.memSize ≤ a + 3) :
    s.writeWord a v = .error ⟨a, .memWrite⟩ := by
  simp [writeWord, h]

@[simp] theorem State.retire_ok (s t : State) (n : Nat) : s.retire n (.ok t) = .next (t.advance n) := rfl

@[simp] theorem State.retire_error (s : State) (n : Nat) (e : AccessError) :
    s.retire n (.error e) = .next (s.raise (.outOfBounds e.address e.kind)) := rfl

/-- The end of an instruction is a next state, whatever its datapath gave. -/
theorem State.retire_next (s : State) (n : Nat) (r : Except AccessError State) : ∃ t, s.retire n r = .next t := by
  cases r <;> exact ⟨_, rfl⟩

/-! ### The four instructions -/

theorem execLoadConst_eq (s : State) {address : Nat} (constant : Nat) (h : address < 128) :
    execLoadConst address constant s =
      .next ({ s with regs := s.regs.set address (BitVec.ofNat 32 constant) }.advance 5) := by
  rw [execLoadConst, s.setRegister_of_lt _ h]; rfl

theorem execReadMem_inside (s : State) {r q : Nat} (hr : r < 128) (hq : q < 128)
    (h : (s.regs[q]).toNat + 3 < s.memSize) :
    execReadMem r q s = .next ({ s with regs := s.regs.set r (s.mem.readWord (s.regs[q]).toNat) }.advance 3) := by
  simp only [execReadMem, s.indirectAddress_of_lt hq, bind, Except.bind, s.readWord_inside h,
    s.setRegister_of_lt _ hr, State.retire_ok, Opcode.length_readMem, BitVec.ofNat_toNat, BitVec.setWidth_eq]

theorem execReadMem_outside (s : State) {r q : Nat} (hq : q < 128) (h : s.memSize ≤ (s.regs[q]).toNat + 3) :
    execReadMem r q s = .next (s.raise (.outOfBounds (s.regs[q]).toNat .memRead)) := by
  simp only [execReadMem, s.indirectAddress_of_lt hq, bind, Except.bind, s.readWord_outside h, State.retire_error]

theorem execWriteMem_inside (s : State) {p r : Nat} (hp : p < 128) (hr : r < 128)
    (h : (s.regs[r]).toNat + 3 < s.memSize) :
    execWriteMem p r s = .next ({ s with mem := s.mem.writeWord (s.regs[r]).toNat s.regs[p] }.advance 3) := by
  simp only [execWriteMem, s.getRegister_of_lt hp, s.indirectAddress_of_lt hr, bind, Except.bind,
    s.writeWord_inside _ h, State.retire_ok, Opcode.length_writeMem]

theorem execWriteMem_outside (s : State) {p r : Nat} (hp : p < 128) (hr : r < 128)
    (h : s.memSize ≤ (s.regs[r]).toNat + 3) :
    execWriteMem p r s = .next (s.raise (.outOfBounds (s.regs[r]).toNat .memWrite)) := by
  simp only [execWriteMem, s.getRegister_of_lt hp, s.indirectAddress_of_lt hr, bind, Except.bind,
    s.writeWord_outside _ h, State.retire_error]

theorem execByteSwap_inside (s : State) {r o q p : Nat} (hr : r < 128) (hp : p < 128)
    (h1 : (s.regs[p]).toNat + o + 3 < s.memSize) (h2 : (s.regs[r]).toNat + q + 3 < s.memSize) :
    execByteSwap r o q p s = .next ({ s with
      mem := s.mem.writeWord ((s.regs[r]).toNat + q)
        (bswap32 (s.mem.readWord ((s.regs[p]).toNat + o))) }.advance 6) := by
  simp only [execByteSwap, s.offsetAddress_of_lt _ hp, s.offsetAddress_of_lt _ hr, bind, Except.bind,
    s.readWord_inside h1, s.writeWord_inside _ h2, State.retire_ok, Opcode.length_byteSwap]

theorem execByteSwap_outside_read (s : State) {r o q p : Nat} (hr : r < 128) (hp : p < 128)
    (h1 : s.memSize ≤ (s.regs[p]).toNat + o + 3) :
    execByteSwap r o q p s = .next (s.raise (.outOfBounds ((s.regs[p]).toNat + o) .memRead)) := by
  simp only [execByteSwap, s.offsetAddress_of_lt _ hp, s.offsetAddress_of_lt _ hr, bind, Except.bind,
    s.readWord_outside h1, State.retire_error]

theorem execByteSwap_outside_write (s : State) {r o q p : Nat} (hr : r < 128) (hp : p < 128)
    (h1 : (s.regs[p]).toNat + o + 3 < s.memSize) (h2 : s.memSize ≤ (s.regs[r]).toNat + q + 3) :
    execByteSwap r o q p s = .next (s.raise (.outOfBounds ((s.regs[r]).toNat + q) .memWrite)) := by
  simp only [execByteSwap, s.offsetAddress_of_lt _ hp, s.offsetAddress_of_lt _ hr, bind, Except.bind,
    s.readWord_inside h1, s.writeWord_outside _ h2, State.retire_error]

/-- The bytes of a reversed word (R95). -/
theorem byteOf_bswap32 (v : Word) {k : Nat} (h : k < 4) : byteOf (bswap32 v) k = byteOf v (3 - k) := by
  obtain ⟨h0, h1, h2, h3⟩ := byteOf_wordOf (byteOf v 3) (byteOf v 2) (byteOf v 1) (byteOf v 0)
  match k, h with
  | 0, _ => exact h0
  | 1, _ => exact h1
  | 2, _ => exact h2
  | 3, _ => exact h3

/-- The bytes of a word read from memory (R32). -/
theorem byteOf_readWord (m : Memory) (a : Nat) {k : Nat} (h : k < 4) : byteOf (m.readWord a) k = m.read (a + k) := by
  obtain ⟨h0, h1, h2, h3⟩ := byteOf_wordOf (m.read a) (m.read (a + 1)) (m.read (a + 2)) (m.read (a + 3))
  match k, h with
  | 0, _ => exact h0
  | 1, _ => exact h1
  | 2, _ => exact h2
  | 3, _ => exact h3

/-- Which instruction changed what: how an instruction that completes leaves registers and memory. -/
def State.completes (s : State) (i : Instr) (regs : Vector Word 128) (mem : Memory) : Prop :=
  match i with
  | .loadConst address constant =>
    ∃ h : address < 128, regs = s.regs.set address (BitVec.ofNat 32 constant) ∧ mem = s.mem
  | .readMem r q => ∃ (hr : r < 128) (hq : q < 128), (s.regs[q]).toNat + 3 < s.memSize ∧
      regs = s.regs.set r (s.mem.readWord (s.regs[q]).toNat) ∧ mem = s.mem
  | .writeMem p r => ∃ (hp : p < 128) (hr : r < 128), (s.regs[r]).toNat + 3 < s.memSize ∧
      regs = s.regs ∧ mem = s.mem.writeWord (s.regs[r]).toNat s.regs[p]
  | .byteSwap r o q p => ∃ (hr : r < 128) (hp : p < 128), (s.regs[p]).toNat + o + 3 < s.memSize ∧
      (s.regs[r]).toNat + q + 3 < s.memSize ∧ regs = s.regs ∧
      mem = s.mem.writeWord ((s.regs[r]).toNat + q) (bswap32 (s.mem.readWord ((s.regs[p]).toNat + o)))

/-- Everything a well-formed instruction can do: it completes, or it takes an `OutOfBounds` fault of a memory word
access outside memory. -/
theorem exec_wf_cases {i : Instr} (hw : i.wf = true) {s t : State} (h : exec i s = .next t) :
    (∃ regs mem, s.completes i regs mem ∧ t = { s with regs := regs, mem := mem, pc := s.pc + i.length }) ∨
      ∃ a k, s.memSize ≤ a + 3 ∧ (k = .memRead ∨ k = .memWrite) ∧ t = s.raise (.outOfBounds a k) := by
  cases i with
  | loadConst address constant =>
    simp only [Instr.wf, wfReg, Bool.and_eq_true, decide_eq_true_eq] at hw
    have ha : address < 128 := by omega
    rw [exec, execLoadConst_eq _ _ ha] at h
    cases h
    exact .inl ⟨_, _, ⟨ha, rfl, rfl⟩, by simp [State.advance]⟩
  | readMem r q =>
    simp only [Instr.wf, wfReg, Bool.and_eq_true, decide_eq_true_eq] at hw
    have hr : r < 128 := by omega
    have hq : q < 128 := by omega
    by_cases hin : (s.regs[q]).toNat + 3 < s.memSize
    · rw [exec, execReadMem_inside s hr hq hin] at h
      cases h
      exact .inl ⟨_, _, ⟨hr, hq, hin, rfl, rfl⟩, by simp [State.advance]⟩
    · rw [exec, execReadMem_outside s hq (by omega)] at h
      cases h
      exact .inr ⟨_, _, by omega, .inl rfl, rfl⟩
  | writeMem p r =>
    simp only [Instr.wf, wfReg, Bool.and_eq_true, decide_eq_true_eq] at hw
    have hp : p < 128 := by omega
    have hr : r < 128 := by omega
    by_cases hin : (s.regs[r]).toNat + 3 < s.memSize
    · rw [exec, execWriteMem_inside s hp hr hin] at h
      cases h
      exact .inl ⟨_, _, ⟨hp, hr, hin, rfl, rfl⟩, by simp [State.advance]⟩
    · rw [exec, execWriteMem_outside s hp hr (by omega)] at h
      cases h
      exact .inr ⟨_, _, by omega, .inr rfl, rfl⟩
  | byteSwap r o q p =>
    simp only [Instr.wf, wfReg, wfOffset, Bool.and_eq_true, decide_eq_true_eq] at hw
    have hr : r < 128 := by omega
    have hp : p < 128 := by omega
    by_cases h1 : (s.regs[p]).toNat + o + 3 < s.memSize
    · by_cases h2 : (s.regs[r]).toNat + q + 3 < s.memSize
      · rw [exec, execByteSwap_inside s hr hp h1 h2] at h
        cases h
        exact .inl ⟨_, _, ⟨hr, hp, h1, h2, rfl, rfl⟩, by simp [State.advance]⟩
      · rw [exec, execByteSwap_outside_write s hr hp h1 (by omega)] at h
        cases h
        exact .inr ⟨_, _, by omega, .inr rfl, rfl⟩
    · rw [exec, execByteSwap_outside_read s hr hp (by omega)] at h
      cases h
      exact .inr ⟨_, _, by omega, .inl rfl, rfl⟩

end Sys2Proof.Machine
end

