-- ==== Sys2Proof/Laws/PerInstr.lean ====
section
/-! SUPPORT. The encoding of each instruction as one integer: its bits and its length (30_encoding.md R57 to R60). -/

namespace Sys2Proof.Laws

/-- The integer an encoded instruction spells, field by field (R57 to R60). -/
def Encoding.value : Instr → Nat
  | .loadConst a c => 2 + a % 2 ^ 7 * 2 ^ 4 + c % 2 ^ 27 * 2 ^ 11
  | .readMem r s => 7 + r % 2 ^ 7 * 2 ^ 4 + s % 2 ^ 7 * 2 ^ 11
  | .writeMem s r => 5 + s % 2 ^ 7 * 2 ^ 4 + r % 2 ^ 7 * 2 ^ 11
  | .byteSwap r o q p => 13 + r % 2 ^ 7 * 2 ^ 4 + o % 2 ^ 12 * 2 ^ 11 + q % 2 ^ 12 * 2 ^ 23 + p % 2 ^ 7 * 2 ^ 35

/-- The encoded bytes spell that integer, are as many as the table says, and carry the opcode in the low nibble. -/
def Encoding.Statement (i : Instr) : Prop :=
  leNat i.encode = Encoding.value i ∧ i.encode.length = i.length ∧ leNat i.encode % 16 = i.opcode.code

/-- Two disjoint groups of bits add. -/
theorem shiftLeft_or_eq_add (a b n : Nat) (h : a < 2 ^ n) : a ||| b * 2 ^ n = a + b * 2 ^ n := by
  rw [Nat.or_comm, ← Nat.shiftLeft_eq, ← Nat.shiftLeft_add_eq_or_of_lt h, Nat.add_comm]

/-- The packed value of a list is its first field plus the rest. -/
theorem packValue_cons (offset v w : Nat) (rest : List (Nat × Nat)) :
    packValue offset ((v, w) :: rest) = v % 2 ^ w * 2 ^ offset + packValue (offset + w) rest := by
  have hv : v % 2 ^ w < 2 ^ w := Nat.mod_lt _ (Nat.two_pow_pos _)
  have hlt : v % 2 ^ w * 2 ^ offset < 2 ^ (offset + w) := by
    rw [Nat.pow_add, Nat.mul_comm (2 ^ offset)]
    exact Nat.mul_lt_mul_of_pos_right hv (Nat.two_pow_pos _)
  have hdvd : 2 ^ (offset + w) ∣ packValue (offset + w) rest := by
    refine Nat.dvd_of_mod_eq_zero (Nat.eq_of_testBit_eq fun k => ?_)
    rw [Nat.testBit_mod_two_pow, Nat.zero_testBit]
    by_cases hk : k < offset + w
    · simp [packValue_testBit_of_lt _ _ _ hk]
    · simp [hk]
  obtain ⟨c, hc⟩ := hdvd
  rw [packValue, Nat.shiftLeft_eq, hc, Nat.mul_comm (2 ^ (offset + w)) c]
  exact shiftLeft_or_eq_add _ _ _ hlt

/-! The list each instruction gives `pack`, lowest field first (R54). -/

theorem packList_loadConst (address constant : Nat) :
    (Instr.loadConst address constant).opcode.packList (Instr.loadConst address constant).named =
      [(2, 4), (address, 7), (constant, 27)] := rfl

theorem packList_readMem (resultAddr sourceAddr : Nat) :
    (Instr.readMem resultAddr sourceAddr).opcode.packList (Instr.readMem resultAddr sourceAddr).named =
      [(7, 4), (resultAddr, 7), (sourceAddr, 7)] := rfl

theorem packList_writeMem (sourceAddr resultAddr : Nat) :
    (Instr.writeMem sourceAddr resultAddr).opcode.packList (Instr.writeMem sourceAddr resultAddr).named =
      [(5, 4), (sourceAddr, 7), (resultAddr, 7)] := rfl

theorem packList_byteSwap (resultAddr operandOffset resultOffset operandAddr : Nat) :
    (Instr.byteSwap resultAddr operandOffset resultOffset operandAddr).opcode.packList (Instr.byteSwap resultAddr operandOffset resultOffset operandAddr).named =
      [(13, 4), (resultAddr, 7), (operandOffset, 12), (resultOffset, 12), (operandAddr, 7)] := rfl

theorem Encoding.loadConst (address constant : Nat) : Encoding.Statement (.loadConst address constant) := by
  have hv : leNat (Instr.loadConst address constant).encode = Encoding.value (.loadConst address constant) := by
    rw [Instr.encode, leNat_pack]
    simp only [packList_loadConst, packValue_cons, packValue_nil, Encoding.value]
    omega
  refine ⟨hv, by simp [Instr.encode, Instr.length, Opcode.length, Opcode.totalBits], ?_⟩
  rw [hv]
  simp [Encoding.value, Instr.opcode, Opcode.code]
  omega

theorem Encoding.readMem (resultAddr sourceAddr : Nat) : Encoding.Statement (.readMem resultAddr sourceAddr) := by
  have hv : leNat (Instr.readMem resultAddr sourceAddr).encode = Encoding.value (.readMem resultAddr sourceAddr) := by
    rw [Instr.encode, leNat_pack]
    simp only [packList_readMem, packValue_cons, packValue_nil, Encoding.value]
    omega
  refine ⟨hv, by simp [Instr.encode, Instr.length, Opcode.length, Opcode.totalBits], ?_⟩
  rw [hv]
  simp [Encoding.value, Instr.opcode, Opcode.code]
  omega

theorem Encoding.writeMem (sourceAddr resultAddr : Nat) : Encoding.Statement (.writeMem sourceAddr resultAddr) := by
  have hv : leNat (Instr.writeMem sourceAddr resultAddr).encode =
      Encoding.value (.writeMem sourceAddr resultAddr) := by
    rw [Instr.encode, leNat_pack]
    simp only [packList_writeMem, packValue_cons, packValue_nil, Encoding.value]
    omega
  refine ⟨hv, by simp [Instr.encode, Instr.length, Opcode.length, Opcode.totalBits], ?_⟩
  rw [hv]
  simp [Encoding.value, Instr.opcode, Opcode.code]
  omega

theorem Encoding.byteSwap (resultAddr operandOffset resultOffset operandAddr : Nat) :
    Encoding.Statement (.byteSwap resultAddr operandOffset resultOffset operandAddr) := by
  have hv : leNat (Instr.byteSwap resultAddr operandOffset resultOffset operandAddr).encode =
      Encoding.value (.byteSwap resultAddr operandOffset resultOffset operandAddr) := by
    rw [Instr.encode, leNat_pack]
    simp only [packList_byteSwap, packValue_cons, packValue_nil, Encoding.value]
    omega
  refine ⟨hv, by simp [Instr.encode, Instr.length, Opcode.length, Opcode.totalBits], ?_⟩
  rw [hv]
  simp [Encoding.value, Instr.opcode, Opcode.code]
  omega

end Sys2Proof.Laws
end

