-- ==== Sys2Proof/Laws/Step.lean ====
section
/-! SUPPORT. One step: everything it can do, said once, and the shape of a run. -/

namespace Sys2Proof.Machine

/-- The four things a step can be: nothing at all, the end of the stream, a decode fault, or the decoded instruction. -/
theorem step_cases {s t : State} (h : step s = .next t) :
    (s.status ≠ .running ∧ t = s) ∨
    (s.status = .running ∧ s.prog.length ≤ s.pc ∧ t = s.endOfStream) ∨
    (s.status = .running ∧ s.pc < s.prog.length ∧ ∃ e, s.fetch = .error e ∧
      t = s.raise (FaultInfo.ofDecode e)) ∨
    (s.status = .running ∧ s.pc < s.prog.length ∧ ∃ i len, s.fetch = .ok (i, len) ∧ exec i s = .next t) := by
  unfold step at h
  split at h
  next hs => cases h; exact .inl ⟨by simp [hs], rfl⟩
  next hs => cases h; exact .inl ⟨by simp [hs], rfl⟩
  next hs =>
    split at h
    next hl => cases h; exact .inr (.inl ⟨hs, hl, rfl⟩)
    next hl =>
      split at h
      next e he => cases h; exact .inr (.inr (.inl ⟨hs, by omega, e, he, rfl⟩))
      next i len hi => exact .inr (.inr (.inr ⟨hs, by omega, i, len, hi, h⟩))

/-- A stopped machine stays as it is. -/
theorem step_stopped {s : State} (h : s.status ≠ .running) : step s = .next s := by
  unfold step
  split
  · rfl
  · rfl
  · contradiction

theorem step_end {s : State} (hs : s.status = .running) (h : s.prog.length ≤ s.pc) :
    step s = .next s.endOfStream := by
  simp [step, hs, h]

theorem step_error {s : State} {e : DecodeError} (hs : s.status = .running) (hl : s.pc < s.prog.length)
    (h : s.fetch = .error e) : step s = .next (s.raise (FaultInfo.ofDecode e)) := by
  simp [step, hs, h, show ¬ s.prog.length ≤ s.pc by omega]

theorem step_ok {s : State} {i : Instr} {len : Nat} (hs : s.status = .running) (h : s.fetch = .ok (i, len)) :
    step s = exec i s := by
  obtain ⟨ho, _⟩ := decode_eq_ok h
  simp [step, hs, h, show ¬ s.prog.length ≤ s.pc by omega]

/-- The state after a step, from what the step answers. -/
theorem State.afterStep_of_next {s t : State} (h : step s = .next t) : s.afterStep = t := by
  simp [afterStep, h]

@[simp] theorem State.after_zero (s : State) : s.after 0 = s := rfl

theorem State.after_succ (s : State) (n : Nat) : s.after (n + 1) = s.afterStep.after n := rfl

end Sys2Proof.Machine
end

