-- ==== Sys2Proof/Machine/Flags.lean ====
section
/-! DEFINITION. The machine has no status flags, condition codes, carry or overflow bits (10_state.md R24), so no
flag is computed and this file defines nothing. -/
end

