-- ==== Sys2Proof/Tests/Slice0.lean ====
section
/-! SUPPORT. Tests of the model on the spec's own vectors (95_test_vectors.md), and for every statement with hypotheses a
witness that meets them all, clause by clause at the boundary of its range. -/

open Sys2Proof Sys2Proof.Machine

namespace Sys2Proof.Tests

/-- A small state: some registers, some memory cells, a program stream; the rest as after reset. -/
def small (regs : List (Fin 128 × Word)) (cells : List Host.Cell) (prog : List Byte) : State :=
  { State.reset with
    regs := regs.foldl (fun r c => r.set c.1 c.2) State.reset.regs
    mem := cells.foldl (fun m c => m.write c.1 c.2) []
    prog := prog }

/-- A next state, decided by running the step. -/
def answersNext (s : State) : Bool :=
  match step s with
  | .next _ => true
  | .fault _ => false
  | .refused _ => false

theorem step_of_answersNext {s : State} (h : answersNext s = true) : step s = .next s.afterStep := by
  unfold answersNext at h
  unfold State.afterStep
  split at h <;> simp_all

/-! ### Well-formedness: for each check an ill-formed term it refuses, and the last value it accepts -/

theorem test_wf_refuses_register_128 : (Instr.loadConst 128 0).wf = false := by decide
theorem test_wf_refuses_constant : (Instr.loadConst 0 (2 ^ 27)).wf = false := by decide
theorem test_wf_refuses_offset : (Instr.byteSwap 0 4096 0 0).wf = false := by decide
theorem test_wf_refuses_each_field :
    (Instr.readMem 128 0).wf = false ∧ (Instr.readMem 0 128).wf = false ∧ (Instr.writeMem 128 0).wf = false ∧
      (Instr.writeMem 0 128).wf = false ∧ (Instr.byteSwap 128 0 0 0).wf = false ∧
      (Instr.byteSwap 0 0 4096 0).wf = false ∧ (Instr.byteSwap 0 0 0 128).wf = false := by decide
theorem test_wf_accepts_maxima :
    (Instr.loadConst 127 134217727).wf ∧ (Instr.readMem 127 127).wf ∧ (Instr.writeMem 127 127).wf ∧
      (Instr.byteSwap 127 4095 4095 127).wf := by decide

/-! ### Decoding: words written out from R57 to R60 (vectors S1 to S4, D5 to D16) -/

theorem test_decode_loadConst_S1 : decode [0xC2, 0xE7, 0x19, 0x00, 0x00] 0 = .ok (.loadConst 124 828, 5) := by decide
theorem test_decode_readMem_S2 : decode [0x47, 0x27, 0x02] 0 = .ok (.readMem 116 68, 3) := by decide
theorem test_decode_writeMem_S3 : decode [0x85, 0x8B, 0x01] 0 = .ok (.writeMem 56 49, 3) := by decide
theorem test_decode_byteSwap_S4 :
    decode [0x2D, 0xFD, 0x16, 0x8E, 0x29, 0x00] 0 = .ok (.byteSwap 82 735 796 5, 6) := by decide
theorem test_decode_padding_D6 : decode [0xC2, 0xE7, 0x19, 0x00, 0xC0] 0 = .ok (.loadConst 124 828, 5) := by decide
theorem test_decode_lone_illegal_D8 : decode [0x00] 0 = .error (.unknownOpcode 0) := by decide
theorem test_decode_truncated_D13 :
    decode [0x0D, 0x00, 0x00, 0x00, 0x00] 0 = .error (.truncatedInstruction 0 6 5) := by decide
theorem test_decode_offset_D14 : decode [0xAA, 0x47, 0x27, 0x02] 1 = .ok (.readMem 116 68, 3) := by decide
theorem test_decode_ones_D15 :
    decode [0xFD, 0xFF, 0xFF, 0xFF, 0xFF, 0xFF] 0 = .ok (.byteSwap 127 4095 4095 127, 6) := by decide
theorem test_decode_misprint_D16 : decode [0x85, 0x88, 0x01] 0 = .ok (.writeMem 8 49, 3) := by decide
theorem test_decode_past_end_D14 : decode [0x02] 1 = .error (.truncatedInstruction 1 1 0) := by decide
theorem test_nibbles_D17 : (List.range 16).filter (fun n => (Opcode.ofCode n).isSome) = [2, 5, 7, 13] := by decide
theorem test_table_word : decodeTableWord 40 0x0019E7C2 = some (.loadConst 124 828) ∧
    decodeTableWord 24 0x022747 = some (.readMem 116 68) ∧ decodeTableWord 24 0x018B85 = some (.writeMem 56 49) ∧
    decodeTableWord 48 0x00298E16FD2D = some (.byteSwap 82 735 796 5) ∧ decodeTableWord 8 0x00 = none := by decide

/-! ### Encoding (vectors E2, E7, E9 to E14) -/

theorem test_encode_ones_E2 : (Instr.loadConst 127 0x7FFFFFF).encode = [0xF2, 0xFF, 0xFF, 0xFF, 0x3F] := by decide
theorem test_encode_ones_E7 :
    (Instr.byteSwap 127 4095 4095 127).encode = [0xFD, 0xFF, 0xFF, 0xFF, 0xFF, 0x03] := by decide
theorem test_encode_readMem_E6 : (Instr.readMem 3 1).encode = [0x37, 0x08, 0x00] := by decide
theorem test_encode_writeMem_E6 : (Instr.writeMem 3 1).encode = [0x35, 0x08, 0x00] := by decide
theorem test_encode_truncates_E11 :
    (Instr.byteSwap 1 4098 3 129).encode = [0x1D, 0x10, 0x80, 0x01, 0x08, 0x00] := by decide
theorem test_encode_missing_E13 :
    (AbstractInstr.mk 7 [(.constant, 9), (.resultAddr, 5)]).encode = .ok [0x57, 0x00, 0x00] := by decide
theorem test_encode_unknown_E14 : (AbstractInstr.mk 3 []).encode = .error (.unknownOpcode 3) := by decide

/-! ### Accessors (vectors M1, M13, M15) and fault codes -/

theorem test_writeWord_M1 : Memory.writeWord [] 0 0x12345678 = [(0, 0x78), (1, 0x56), (2, 0x34), (3, 0x12)] := by
  decide
theorem test_write_zero_unlists : Memory.write [(4, 7), (9, 1)] 4 0 = [(9, 1)] := by decide
theorem test_load_M13 : Memory.load [] 16 [1, 2, 3, 4, 5, 6] 12 = [(12, 1), (13, 2), (14, 3), (15, 4)] := by decide
theorem test_preload_M15 : (State.launch 65536 [] [([0xAA, 0xBB], 0), ([0xCC], 1)]).mem = [(0, 0xAA), (1, 0xCC)] := by
  decide
theorem test_cause_codes_R98 :
    [Cause.unknownOpcode, .truncatedInstruction, .outOfBounds].map Cause.code = [1, 2, 3] := by decide

/-! ### One step of each instruction (vectors L2, L3, RW3, RW10, RW7, RW9, BS3, BS9) -/

theorem test_loadConst_no_sign_L2 :
    (small [] [] [0xF2, 0xFF, 0xFF, 0xFF, 0x3F]).afterStep.regs[127] = 0x07FFFFFF := by decide
theorem test_loadConst_replaces_L3 :
    (small [(9, 0xFFFFFFFF)] [] [0x92, 0x08, 0x00, 0x00, 0x00]).afterStep.regs[9] = 1 := by decide
theorem test_readMem_same_register_RW3 :
    (small [(7, 0x200)] [(0x200, 0x44), (0x201, 0x33), (0x202, 0x22), (0x203, 0x11)]
      [0x77, 0x38, 0x00]).afterStep.regs[7] = 0x11223344 := by decide
theorem test_readMem_no_wrap_RW10 :
    (small [(1, 0xFFFFFFFF)] [] [0x27, 0x08, 0x00]).afterStep.report =
      (.fault, some ⟨.execute, .outOfBounds, 0, .outOfBounds 4294967295 .memRead⟩, 0) := by decide
theorem test_writeMem_top_RW7 :
    (small [(1, 65532), (2, 0xDDCCBBAA)] [] [0x25, 0x08, 0x00]).afterStep.mem =
      [(65532, 0xAA), (65533, 0xBB), (65534, 0xCC), (65535, 0xDD)] := by decide
theorem test_writeMem_fault_RW9 :
    let t := (small [(1, 65534), (2, 0x07FFFFFF)] [] [0x25, 0x08, 0x00]).afterStep
    t.mem = [] ∧ t.report = (.fault, some ⟨.execute, .outOfBounds, 0, .outOfBounds 65534 .memWrite⟩, 0) := by decide
theorem test_byteSwap_overlap_BS3 :
    (small [(2, 0x100)] [(0x100, 0xA0), (0x101, 0xA1), (0x102, 0xA2), (0x103, 0xA3), (0x104, 0xA4)]
      [0x2D, 0x00, 0x80, 0x00, 0x10, 0x00]).afterStep.mem =
      [(0x100, 0xA0), (0x101, 0xA3), (0x102, 0xA2), (0x103, 0xA1), (0x104, 0xA0)] := by decide
theorem test_byteSwap_sum_past_2_32_BS9 :
    (small [(4, 0xFFFFFFFF), (2, 0x100)] [] [0x2D, 0xF8, 0x7F, 0x00, 0x20, 0x00]).afterStep.report =
      (.fault, some ⟨.execute, .outOfBounds, 0, .outOfBounds 4294971390 .memRead⟩, 0) := by decide

/-! ### The engine (vectors F1, F3, and the last step of P6), and the word the host places -/

theorem test_empty_program_F1 : State.reset.afterStep = { State.reset with status := .done } := rfl
theorem test_truncated_F3 :
    (small [] [] [0x07]).afterStep.report =
      (.fault, some ⟨.decode, .truncatedInstruction, 0, .truncatedInstruction 0 3 1⟩, 0) := by decide
theorem test_priority_P6 :
    { small [] [] [0x92, 0x38, 0x00, 0x00, 0x00, 0x10] with pc := 5 }.afterStep.report =
      (.fault, some ⟨.decode, .unknownOpcode, 5, .unknownOpcode 0⟩, 5) := by decide
theorem test_withFetchWord_runs :
    (State.reset.withFetchWord 40 0x0019E7C2).afterStep.regs[124] = 828 ∧
      (State.reset.withFetchWord 40 0x0019E7C2).afterStep.pc = 5 := by decide
theorem test_bswap32_B7 : bswap32 0x80000001 = 0x01000080 := by decide

/-! ### Witnesses: the hypotheses of each statement are met -/

theorem test_witness_PackPlacesFields :
    [(2, 4), (124, 7), (828, 27)] = [(2, 4), (124, 7)] ++ (828, 27) :: [] ∧ 26 < 27 ∧
      (([(2, 4), (124, 7), (828, 27)] : List (Nat × Nat)).map (·.2)).sum ≤ 38 := by decide
theorem test_witness_UnpackInvertsPack :
    ([0x47, 0x27, 0xFE] : List Byte).length = bytesFor [4, 7, 7].sum ∧
      unpack [0x47, 0x27, 0xFE] 0 [4, 7, 7] = some ([7, 116, 68], 3) := by decide
theorem test_witness_DecodeInvertsEncode : (Instr.byteSwap 127 4095 4095 127).wf = true := by decide
theorem test_witness_NamedEncodeDecodes : Opcode.ofCode 13 = some .byteSwap ∧ 14 ∉ [2, 5, 7, 13] := by decide
theorem test_witness_EncodedLengthAndPadding : 38 ≤ 38 ∧ 18 ≤ 18 ∧ 42 ≤ 42 := by decide
theorem test_witness_IllegalNibbleRefused_illegal :
    opcodeNibble 0xFF ∉ [2, 5, 7, 13] ∧ (small [] [] [0xFF]).status = .running ∧
      (small [] [] [0xFF]).prog = [0xFF] ∧ (small [] [] [0xFF]).pc = 0 := by decide
theorem test_witness_IllegalNibbleRefused_legal :
    opcodeNibble 0x47 = Opcode.readMem.code ∧ 0 + Opcode.readMem.length ≤ [0x47, 0x27, 0x02].length := by decide
theorem test_witness_ShortInstructionTruncated_short :
    opcodeNibble 0x0D = Opcode.byteSwap.code ∧ ([0x0D, 0, 0, 0, 0] : List Byte).length < 0 + 6 := by decide
theorem test_witness_ShortInstructionTruncated_complete :
    opcodeNibble 0x0D = Opcode.byteSwap.code ∧ 0 + 6 ≤ ([0x0D, 0, 0, 0, 0, 0] : List Byte).length := by decide
theorem test_witness_DecodedFieldsAreSlices :
    (opcodeNibble 0xC2 = 2 ∧ 0 + 5 ≤ [0xC2, 0xE7, 0x19, 0x00, 0x00].length) ∧
    (opcodeNibble 0x47 = 7 ∧ 0 + 3 ≤ [0x47, 0x27, 0x02].length) ∧
    (opcodeNibble 0x85 = 5 ∧ 0 + 3 ≤ [0x85, 0x8B, 0x01].length) ∧
    (opcodeNibble 0x2D = 13 ∧ 0 + 6 ≤ [0x2D, 0xFD, 0x16, 0x8E, 0x29, 0x00].length) ∧
    decode [0x47, 0x27, 0x02] 0 = .ok (.readMem 116 68, 3) := by decide
theorem test_witness_DecodedIsWellFormed : decode [0x47, 0x27, 0xFE] 0 = .ok (.readMem 116 68, 3) := by decide
theorem test_witness_PaddingIgnored : 0xFE2747 % 16 = Opcode.readMem.code := by decide
theorem test_witness_WindowDecoderAgrees : 2 < ([0x47, 0x27, 0x02] : List Byte).length := by decide
theorem test_witness_ByteAccessors : State.reset.memSize ≤ 65536 ∧ 65535 < State.reset.memSize := by decide
theorem test_witness_word_accesses : State.reset.memSize ≤ 65533 + 3 ∧ 65532 + 3 < State.reset.memSize := by decide
theorem test_witness_register_accesses : 127 < 128 ∧ 128 ≤ 128 := by decide
theorem test_witness_MemoryCanonicalForm :
    Memory.wf [(4, 7), (9, 1)] ∧ Memory.wf (Memory.write [(9, 1)] 4 7) ∧
      Memory.write [(9, 1)] 4 7 = [(4, 7), (9, 1)] := by decide
theorem test_witness_LoadConstSetsRegister : 127 < 128 ∧ 134217727 < 2 ^ 27 ∧ 0 < 4 ∧ 4 < 5 ∧ 3 < 4 := by decide

/-- A state for the memory instructions: register 1 at the last word, 2 just past it, 3 near 2^32. -/
def edges : State := small [(1, 65532), (2, 65533), (3, 0xFFFFFFFF)] [(65532, 0x78), (65535, 0x12)] []

theorem test_witness_ReadMemLoadsWord : (edges.regs[1]).toNat + 3 < edges.memSize := by decide
theorem test_witness_ReadMemFaults : edges.memSize ≤ (edges.regs[2]).toNat + 3 := by decide
theorem test_witness_WriteMemStoresWord : (edges.regs[1]).toNat + 3 < edges.memSize := by decide
theorem test_witness_WriteMemFaults : edges.memSize ≤ (edges.regs[2]).toNat + 3 := by decide
theorem test_witness_ByteSwapReversesWord :
    (edges.regs[1]).toNat + 0 + 3 < edges.memSize ∧ (edges.regs[0]).toNat + 4095 + 3 < edges.memSize ∧ 3 < 4 := by decide
theorem test_witness_ByteSwapFaultsReadFirst_read : edges.memSize ≤ (edges.regs[1]).toNat + 1 + 3 := by decide
theorem test_witness_ByteSwapFaultsReadFirst_write :
    (edges.regs[1]).toNat + 0 + 3 < edges.memSize ∧ edges.memSize ≤ (edges.regs[2]).toNat + 0 + 3 := by decide
theorem test_witness_AddressSumDoesNotWrap_operand :
    edges.memSize ≤ 2 ^ 32 ∧ 1 < 2 ^ 12 ∧ 2 ^ 32 ≤ (edges.regs[3]).toNat + 1 := by decide
theorem test_witness_AddressSumDoesNotWrap_result :
    edges.memSize ≤ 2 ^ 32 ∧ 4095 < 2 ^ 12 ∧ (edges.regs[1]).toNat + 0 + 3 < edges.memSize ∧
      2 ^ 32 ≤ (edges.regs[3]).toNat + 4095 := by decide

/-- The state after a WriteMem of register 3 at the address in register 4, register 5 holding that address plus 3. -/
def stored : State := small [(3, 0xFFFFFFFF), (4, 0x100), (5, 0x103)] [] [0x35, 0x20, 0x00]

theorem test_witness_StoreThenLoad :
    (stored.regs[4]).toNat + 3 < stored.memSize ∧ exec (.writeMem 3 4) stored = .next stored.afterStep ∧
      3 < 4 ∧ (stored.afterStep.regs[5]).toNat = (stored.regs[4]).toNat + 3 ∧
      (stored.afterStep.regs[5]).toNat + 3 < stored.afterStep.memSize :=
  ⟨by decide, (step_ok (len := 3) rfl (by decide)).symm.trans (step_of_answersNext (by decide +kernel)),
    by decide, by decide +kernel, by decide +kernel⟩

/-- A RUNNING state about to run `LoadConst 127 0x7FFFFFF`. -/
def loading : State := small [] [] [0xF2, 0xFF, 0xFF, 0xFF, 0x3F]

theorem test_witness_LoadConstBelowTwoTo27 :
    loading.status = .running ∧ loading.fetch = .ok (.loadConst 127 0x7FFFFFF, 5) ∧
      step loading = .next loading.afterStep := ⟨by decide, by decide, rfl⟩
theorem test_witness_StepRunsDecoded :
    loading.status = .running ∧ decode loading.prog loading.pc = .ok (.loadConst 127 0x7FFFFFF, 5) := by decide
theorem test_witness_StepRunsEncoded :
    loading.status = .running ∧ (Instr.loadConst 127 0x7FFFFFF).wf = true ∧
      loading.prog = [] ++ (Instr.loadConst 127 0x7FFFFFF).encode ++ [] ∧ loading.pc = ([] : List Byte).length := by
  decide
theorem test_witness_EndOfStreamStops :
    State.reset.status = .running ∧ State.reset.prog.length ≤ State.reset.pc := by decide
theorem test_witness_DecodeFaultTaken :
    (small [] [] [0x0F]).pc < (small [] [] [0x0F]).prog.length ∧ decode [0x0F] 0 = .error (.unknownOpcode 15) ∧
      decode [0x07] 0 = .error (.truncatedInstruction 0 3 1) ∧ (small [] [] [0x0F]).status = .running := by decide
theorem test_witness_StoppedStaysStopped :
    State.reset.afterStep.status ≠ .running ∧ (small [] [] [0x07]).afterStep.status ≠ .running := by decide
theorem test_witness_FaultEntryIsPrecise :
    (small [] [] [0x07]).status = .running ∧ step (small [] [] [0x07]) = .next (small [] [] [0x07]).afterStep ∧
      (small [] [] [0x07]).afterStep.status = .fault := ⟨by decide, rfl, by decide⟩
theorem test_witness_PcAdvancesByLength_runs :
    loading.status = .running ∧ step loading = .next loading.afterStep ∧ loading.afterStep.status = .running :=
  ⟨by decide, rfl, by decide⟩
theorem test_witness_PcAdvancesByLength_stops :
    step State.reset = .next State.reset.afterStep ∧ State.reset.afterStep.status ≠ .running := ⟨rfl, by decide⟩
theorem test_witness_StepPriority_end :
    State.reset.status = .running ∧ ¬ State.reset.pc < State.reset.prog.length := by decide
theorem test_witness_StepPriority_illegal :
    let s := small [] [] [0x00]
    s.status = .running ∧ s.pc < s.prog.length ∧ opcodeNibble 0x00 ∉ [2, 5, 7, 13] := by decide
theorem test_witness_StepPriority_truncated :
    let s := small [] [] [0x0D, 0, 0, 0, 0]
    s.status = .running ∧ s.pc < s.prog.length ∧ opcodeNibble 0x0D = Opcode.byteSwap.code ∧
      s.prog.length < s.pc + Opcode.byteSwap.length := by decide

/-- A RUNNING state about to run `ByteSwap`, the operand word at `operand` and the result word at `result`. -/
def swapping (operand result : Word) : State :=
  small [(1, result), (2, operand)] [] [0x1D, 0x00, 0x00, 0x00, 0x10, 0x00]

theorem test_witness_StepPriority_read :
    let s := swapping 65533 65533
    s.status = .running ∧ s.pc < s.prog.length ∧ ¬ s.prog.length < s.pc + Opcode.byteSwap.length ∧
      decode s.prog s.pc = .ok (.byteSwap 1 0 0 2, 6) ∧ s.readAddress (.byteSwap 1 0 0 2) = .ok (some 65533) ∧
      s.writeAddress (.byteSwap 1 0 0 2) = .ok (some 65533) ∧ s.memSize ≤ 65533 + 3 := by decide
theorem test_witness_StepPriority_write :
    let s := swapping 65532 65533
    s.status = .running ∧ s.pc < s.prog.length ∧ ¬ s.prog.length < s.pc + Opcode.byteSwap.length ∧
      decode s.prog s.pc = .ok (.byteSwap 1 0 0 2, 6) ∧ s.readAddress (.byteSwap 1 0 0 2) = .ok (some 65532) ∧
      s.writeAddress (.byteSwap 1 0 0 2) = .ok (some 65533) ∧ ¬ s.memSize ≤ 65532 + 3 ∧ s.memSize ≤ 65533 + 3 := by
  decide
theorem test_witness_StepPriority_runs :
    loading.status = .running ∧ loading.pc < loading.prog.length ∧ opcodeNibble 0xF2 = Opcode.loadConst.code ∧
      ¬ loading.prog.length < loading.pc + Opcode.loadConst.length := by decide
theorem test_witness_ResetState : 127 < 128 := by decide
theorem test_witness_LaunchHasInvariant_LaunchedRunOutcome : 1 ≤ 1 ∧ 1 ≤ State.reset.memSize := by decide
theorem test_witness_StepKeepsInvariant : State.reset.Inv ∧ step State.reset = .next State.reset.afterStep :=
  ⟨⟨by decide, by decide, by decide, by decide, by decide, by simp [State.faultOk, State.reset]⟩, rfl⟩
theorem test_witness_RunParametersFixed : step loading = .next loading.afterStep := rfl
theorem test_witness_WhoWritesState_register : loading.afterStep.regs[127] ≠ loading.regs[127] := by decide
theorem test_witness_WhoWritesState_memory :
    step stored = .next stored.afterStep ∧ stored.afterStep.mem.read 0x103 ≠ stored.mem.read 0x103 :=
  ⟨step_of_answersNext (by decide), by decide +kernel⟩
theorem test_witness_UnreadRegisterNoInfluence :
    3 ∉ readsRegister (.readMem 3 4) ∧
      exec (.writeMem 3 4) stored = .next stored.afterStep ∧ 5 ∉ readsRegister (.writeMem 3 4) :=
  ⟨by decide, (step_ok (len := 3) rfl (by decide)).symm.trans (step_of_answersNext (by decide)), by decide⟩
theorem test_witness_InspectionPort :
    State.reset.status = .running ∧ State.reset.afterStep.status ≠ .running ∧
      State.reset.afterStep.memSize ≤ 65533 + 3 ∧ 65532 + 3 < State.reset.afterStep.memSize ∧
      State.reset.afterStep.memSize ≤ 65536 ∧ 65535 < State.reset.afterStep.memSize ∧ 127 < 128 ∧ 128 ≤ 128 := by decide
theorem test_witness_LoadPortClosesAtStart :
    State.reset.notStarted ∧ step State.reset = .next State.reset.afterStep := ⟨by decide, rfl⟩

end Sys2Proof.Tests
end

section
/-! PROOF. Every step keeps the invariant of a run: each thing a step can do (`step_cases`) keeps it. -/

namespace Sys2Proof.Machine

/-! ### The fault field and the status -/

/-- Outside FAULT the fault field agrees with the status exactly when there is no record (R23). -/
theorem State.faultOk_iff_of_ne_fault {s : State} (h : s.status ≠ .fault) : s.faultOk ↔ s.fault = none := by
  unfold State.faultOk
  cases s.fault <;> simp [h]

/-- A fault taken is recorded rightly exactly when its data may stand in the record (R103, R104). -/
theorem State.faultOk_raise_iff (s : State) (info : FaultInfo) :
    (s.raise info).faultOk ↔ info.ok s.pc s.memSize := by
  simp [State.faultOk]

/-- What the decoder reports of the instruction at `pc` is data that a fault record may hold (R99, R100). -/
theorem FaultInfo.ok_ofDecode {s : State} {e : DecodeError} (hpc : s.pc < s.prog.length)
    (he : s.fetch = .error e) : (FaultInfo.ofDecode e).ok s.pc s.memSize := by
  rcases decode_eq_error hpc he with ⟨rfl, hillegal⟩ | ⟨op, -, hshort, rfl⟩
  · exact ⟨opcodeNibble_lt _, hillegal⟩
  · exact ⟨rfl, op.length_cases, by omega, hshort⟩

/-! ### What an instruction that completes does to memory -/

/-- An instruction that completes leaves memory alone or stores one word inside `MEM_SIZE`. -/
theorem State.completes_mem {s : State} {i : Instr} {regs : Vector Word 128} {mem : Memory}
    (h : s.completes i regs mem) :
    mem = s.mem ∨ ∃ a v, a + 3 < s.memSize ∧ mem = s.mem.writeWord a v := by
  cases i with
  | loadConst address constant =>
    obtain ⟨_, _, hmem⟩ := h
    exact .inl hmem
  | readMem resultAddr sourceAddr =>
    obtain ⟨_, _, _, _, hmem⟩ := h
    exact .inl hmem
  | writeMem sourceAddr resultAddr =>
    obtain ⟨_, _, hin, _, hmem⟩ := h
    exact .inr ⟨_, _, hin, hmem⟩
  | byteSwap resultAddr operandOffset resultOffset operandAddr =>
    obtain ⟨_, _, _, hin, _, hmem⟩ := h
    exact .inr ⟨_, _, hin, hmem⟩

/-- A word stored inside `size` lists no address outside it. -/
theorem Memory.writeWord_inside {m : Memory} {a size : Nat} (v : Word) (ha : a + 3 < size)
    (hm : ∀ c ∈ m, c.1 < size) : ∀ c ∈ m.writeWord a v, c.1 < size := by
  intro c hc
  rcases Memory.mem_writeWord hc with hword | hold
  · omega
  · exact hm c hold

/-- Memory stays canonical and inside `MEM_SIZE` when an instruction completes (R31). -/
theorem State.Inv.mem_of_completes {s : State} (hs : s.Inv) {i : Instr} {regs : Vector Word 128} {mem : Memory}
    (h : s.completes i regs mem) : mem.wf ∧ ∀ c ∈ mem, c.1 < s.memSize := by
  rcases State.completes_mem h with rfl | ⟨a, v, hin, rfl⟩
  · exact ⟨hs.memCanonical, hs.memInside⟩
  · exact ⟨Memory.wf_writeWord a v hs.memCanonical, Memory.writeWord_inside v hin hs.memInside⟩

/-! ### Each thing a step can do keeps the invariant -/

/-- Taking a fault keeps the invariant when its data may stand in the record. -/
theorem State.Inv.raise {s : State} (hs : s.Inv) {info : FaultInfo} (hinfo : info.ok s.pc s.memSize) :
    (s.raise info).Inv :=
  { hs with
    doneAtEnd := by simp
    faultAgrees := (s.faultOk_raise_iff info).2 hinfo }

/-- The end of the stream keeps the invariant: the bound on `pc` makes the test for it an equation (R21, R79). -/
theorem State.Inv.endOfStream {s : State} (hs : s.Inv) (hrun : s.status = .running)
    (hend : s.prog.length ≤ s.pc) : s.endOfStream.Inv :=
  have hnone : s.fault = none := (State.faultOk_iff_of_ne_fault (by simp [hrun])).1 hs.faultAgrees
  { hs with
    doneAtEnd := fun _ => Nat.le_antisymm hs.pcInside hend
    faultAgrees := (State.faultOk_iff_of_ne_fault (by simp)).2 hnone }

/-- An instruction that completes keeps the invariant when its bytes lie in the stream. -/
theorem State.Inv.complete {s : State} (hs : s.Inv) (hrun : s.status = .running) {i : Instr}
    {regs : Vector Word 128} {mem : Memory} (h : s.completes i regs mem)
    (hlen : s.pc + i.length ≤ s.prog.length) :
    State.Inv { s with regs := regs, mem := mem, pc := s.pc + i.length } :=
  have hnone : s.fault = none := (State.faultOk_iff_of_ne_fault (by simp [hrun])).1 hs.faultAgrees
  { memCanonical := (hs.mem_of_completes h).1
    memInside := (hs.mem_of_completes h).2
    memSizeBound := hs.memSizeBound
    pcInside := hlen
    doneAtEnd := by simp [hrun]
    faultAgrees := (State.faultOk_iff_of_ne_fault (by simp [hrun])).2 hnone }

/-- The decoded instruction keeps the invariant, whether it completes or takes its fault. -/
theorem State.Inv.exec {s t : State} (hs : s.Inv) (hrun : s.status = .running) {i : Instr} {len : Nat}
    (hfetch : s.fetch = .ok (i, len)) (h : exec i s = .next t) : t.Inv := by
  obtain ⟨_, op, -, hlen, hinside, hop, hwf, -⟩ := decode_eq_ok hfetch
  rcases exec_wf_cases hwf h with ⟨regs, mem, hcompletes, rfl⟩ | ⟨a, k, hout, hkind, rfl⟩
  · refine hs.complete hrun hcompletes ?_
    rwa [Instr.length, hop, ← hlen]
  · exact hs.raise ⟨hout, hkind⟩

/-- Settles O41, by the four things a step can be. -/
theorem stepKeepsInvariant : Obligations.StepKeepsInvariant := by
  intro s t hs hstep
  rcases step_cases hstep with ⟨-, rfl⟩ | ⟨hrun, hend, rfl⟩ | ⟨-, hpc, e, he, rfl⟩ |
    ⟨hrun, -, i, len, hfetch, hexec⟩
  · exact hs
  · exact hs.endOfStream hrun hend
  · exact hs.raise (FaultInfo.ok_ofDecode hpc he)
  · exact hs.exec hrun hfetch hexec

end Sys2Proof.Machine
end

section
/-! PROOF. Frames of a step, for the statements about the state: the run's parameters, who writes registers and memory,
the absorbing stops, and the state after reset. -/

namespace Sys2Proof.Machine

/-! ### What a step can change -/

/-- The decoded instruction completes, or it takes a fault. -/
theorem exec_of_fetch_cases {s t : State} {i : Instr} {len : Nat} (hfetch : s.fetch = .ok (i, len))
    (h : exec i s = .next t) :
    (∃ regs mem, s.completes i regs mem ∧ t = { s with regs := regs, mem := mem, pc := s.pc + i.length }) ∨
      ∃ info, t = s.raise info := by
  obtain ⟨_, _, -, -, -, -, hwf, -⟩ := decode_eq_ok hfetch
  rcases exec_wf_cases hwf h with hcompletes | ⟨_, _, -, -, ht⟩
  · exact .inl hcompletes
  · exact .inr ⟨_, ht⟩

/-- The run's parameters are not written by a step (R14, R28). -/
theorem step_parameters {s t : State} (h : step s = .next t) : t.prog = s.prog ∧ t.memSize = s.memSize := by
  rcases step_cases h with ⟨-, rfl⟩ | ⟨-, -, rfl⟩ | ⟨-, -, _, -, rfl⟩ | ⟨-, -, i, len, hfetch, hexec⟩
  · exact ⟨rfl, rfl⟩
  · exact ⟨rfl, rfl⟩
  · exact ⟨rfl, rfl⟩
  · rcases exec_of_fetch_cases hfetch hexec with ⟨_, _, -, rfl⟩ | ⟨_, rfl⟩ <;> exact ⟨rfl, rfl⟩

/-- A step leaves registers and memory alone, or the fetched instruction completes and leaves them as it says. -/
theorem step_data_cases {s t : State} (h : step s = .next t) :
    (t.regs = s.regs ∧ t.mem = s.mem) ∨
      ∃ i len, s.fetch = .ok (i, len) ∧ s.completes i t.regs t.mem := by
  rcases step_cases h with ⟨-, rfl⟩ | ⟨-, -, rfl⟩ | ⟨-, -, _, -, rfl⟩ | ⟨-, -, i, len, hfetch, hexec⟩
  · exact .inl ⟨rfl, rfl⟩
  · exact .inl ⟨rfl, rfl⟩
  · exact .inl ⟨rfl, rfl⟩
  · rcases exec_of_fetch_cases hfetch hexec with ⟨_, _, hcompletes, rfl⟩ | ⟨_, rfl⟩
    · exact .inr ⟨i, len, hfetch, hcompletes⟩
    · exact .inl ⟨rfl, rfl⟩

/-- Settles O46: the frame of a step, and fetch reads the stream and `pc` alone. -/
theorem runParametersFixed : Obligations.RunParametersFixed := by
  intro s t hstep
  obtain ⟨hprog, hmemSize⟩ := step_parameters hstep
  refine ⟨hprog, hmemSize, fun m => ?_⟩
  calc State.fetch { t with mem := m } = decode t.prog t.pc := rfl
    _ = decode s.prog t.pc := by rw [hprog]

/-! ### Who writes registers and memory -/

/-- An instruction that completes and changes register `j` is a LoadConst or a ReadMem naming it (R17). -/
theorem State.completes_writes_register {s : State} {i : Instr} {regs : Vector Word 128} {mem : Memory}
    (h : s.completes i regs mem) {j : Nat} (hj : j < 128) (hne : regs[j] ≠ s.regs[j]) :
    (∃ c, i = .loadConst j c) ∨ ∃ q, i = .readMem j q := by
  cases i with
  | loadConst address constant =>
    obtain ⟨_, rfl, -⟩ := h
    by_cases ha : address = j
    · exact .inl ⟨constant, by rw [ha]⟩
    · exact absurd (Vector.getElem_set_ne _ hj ha) hne
  | readMem resultAddr sourceAddr =>
    obtain ⟨_, _, -, rfl, -⟩ := h
    by_cases hr : resultAddr = j
    · exact .inr ⟨sourceAddr, by rw [hr]⟩
    · exact absurd (Vector.getElem_set_ne _ hj hr) hne
  | writeMem sourceAddr resultAddr =>
    obtain ⟨_, _, -, rfl, -⟩ := h
    exact absurd rfl hne
  | byteSwap resultAddr operandOffset resultOffset operandAddr =>
    obtain ⟨_, _, -, -, rfl, -⟩ := h
    exact absurd rfl hne

/-- A word stored inside memory changes bytes inside memory only. -/
theorem Memory.lt_of_read_writeWord_ne {m : Memory} {a x size : Nat} {v : Word} (ha : a + 3 < size)
    (hne : (m.writeWord a v).read x ≠ m.read x) : x < size := by
  rw [Memory.read_writeWord] at hne
  have hword : a ≤ x ∧ x < a + 4 := by
    by_contra hout
    exact hne (if_neg hout)
  omega

/-- An instruction that completes and changes the byte at `a` is a WriteMem or a ByteSwap, and `a` is inside memory
(R17, R27). -/
theorem State.completes_writes_memory {s : State} {i : Instr} {regs : Vector Word 128} {mem : Memory}
    (h : s.completes i regs mem) {a : Nat} (hne : mem.read a ≠ s.mem.read a) :
    a < s.memSize ∧ ((∃ p r, i = .writeMem p r) ∨ ∃ r o q p, i = .byteSwap r o q p) := by
  cases i with
  | loadConst address constant =>
    obtain ⟨_, -, rfl⟩ := h
    exact absurd rfl hne
  | readMem resultAddr sourceAddr =>
    obtain ⟨_, _, -, -, rfl⟩ := h
    exact absurd rfl hne
  | writeMem sourceAddr resultAddr =>
    obtain ⟨_, _, hin, -, rfl⟩ := h
    exact ⟨Memory.lt_of_read_writeWord_ne hin hne, .inl ⟨_, _, rfl⟩⟩
  | byteSwap resultAddr operandOffset resultOffset operandAddr =>
    obtain ⟨_, _, -, hin, -, rfl⟩ := h
    exact ⟨Memory.lt_of_read_writeWord_ne hin hne, .inr ⟨_, _, _, _, rfl⟩⟩

/-- Settles O47: only an instruction that completes changes data, and it changes what it names. -/
theorem whoWritesState : Obligations.WhoWritesState := by
  intro s t hstep
  rcases step_data_cases hstep with ⟨hregs, hmem⟩ | ⟨i, len, hfetch, hcompletes⟩
  · exact ⟨fun j _ hne => absurd (by rw [hregs]) hne, fun a hne => absurd (by rw [hmem]) hne⟩
  · refine ⟨fun j hj hne => ⟨len, ?_⟩, fun a hne => ?_⟩
    · rcases State.completes_writes_register hcompletes hj hne with ⟨c, rfl⟩ | ⟨q, rfl⟩
      · exact .inl ⟨c, hfetch⟩
      · exact .inr ⟨q, hfetch⟩
    · obtain ⟨ha, ⟨p, r, rfl⟩ | ⟨r, o, q, p, rfl⟩⟩ := State.completes_writes_memory hcompletes hne
      · exact ⟨ha, len, .inl ⟨p, r, hfetch⟩⟩
      · exact ⟨ha, len, .inr ⟨r, o, q, p, hfetch⟩⟩

/-! ### Stops and reset -/

/-- A stopped machine stays as it is for any number of steps (R77). -/
theorem State.after_of_stopped {s : State} (h : s.status ≠ .running) (n : Nat) : s.after n = s := by
  induction n with
  | zero => rfl
  | succ n ih => rw [State.after_succ, State.afterStep_of_next (step_stopped h), ih]

/-- Settles O36, by induction on the number of steps. -/
theorem stoppedStaysStopped : Obligations.StoppedStaysStopped :=
  fun _ n h => ⟨step_stopped h, State.after_of_stopped h n⟩

/-- Settles O42: memory lists nothing, `pc` is 0 and there is no fault. -/
theorem resetHasInvariant : Obligations.ResetHasInvariant where
  memCanonical := Memory.wf_nil
  memInside _ hc := absurd hc List.not_mem_nil
  memSizeBound := by decide
  pcInside := Nat.zero_le _
  doneAtEnd _ := rfl
  faultAgrees := (State.faultOk_iff_of_ne_fault (by decide)).2 rfl

/-- Settles O49: each field as reset sets it, and a launch with the default preload changes none. -/
theorem resetState : Obligations.ResetState :=
  ⟨rfl, rfl, rfl, fun _ hi => Vector.getElem_replicate hi, Memory.read_nil, rfl, rfl⟩

end Sys2Proof.Machine
end

section
/-! PROOF. A register that an instruction does not read has no influence on the rest of the state: two states that differ
in that register alone give the same operands, so the same effect (10_state.md R17). -/

namespace Sys2Proof.Machine

/-! ### States and results that differ in one register at most -/

/-- `u` is `s` but for register `j`. -/
def State.sameButRegister (j : Nat) (s u : State) : Prop :=
  u = { s with regs := u.regs } ∧ ∀ (k : Nat) (_ : k < 128), k ≠ j → u.regs[k] = s.regs[k]

/-- The same fault of an accessor, or states equal but for register `j`. -/
inductive ResultSameButRegister (j : Nat) : Except AccessError State → Except AccessError State → Prop where
  | ok {s u : State} (h : s.sameButRegister j u) : ResultSameButRegister j (.ok s) (.ok u)
  | error (e : AccessError) : ResultSameButRegister j (.error e) (.error e)

/-- An operand that is the same on both sides keeps the two results alike. -/
theorem ResultSameButRegister.bind {α : Type} {j : Nat} (x : Except AccessError α)
    {f g : α → Except AccessError State} (h : ∀ a, ResultSameButRegister j (f a) (g a)) :
    ResultSameButRegister j (x >>= f) (x >>= g) := by
  cases x with
  | error e => exact .error e
  | ok a => exact h a

theorem State.sameButRegister_set (s : State) {j : Nat} (hj : j < 128) (v : Word) :
    s.sameButRegister j { s with regs := s.regs.set j v } :=
  ⟨rfl, fun _ hk hne => Vector.getElem_set_ne hj hk (Ne.symm hne)⟩

section
variable {j : Nat} {s u : State}

/-! ### The accessors -/

theorem State.sameButRegister.getRegister (h : s.sameButRegister j u) {i : Nat} (hi : i ≠ j) :
    u.getRegister i = s.getRegister i := by
  rcases Nat.lt_or_ge i 128 with hlt | hge
  · rw [u.getRegister_of_lt hlt, s.getRegister_of_lt hlt, h.2 i hlt hi]
  · rw [u.getRegister_of_ge hge, s.getRegister_of_ge hge]

theorem State.sameButRegister.indirectAddress (h : s.sameButRegister j u) {i : Nat} (hi : i ≠ j) :
    u.indirectAddress i = s.indirectAddress i := by
  rw [State.indirectAddress, h.getRegister hi]; rfl

theorem State.sameButRegister.offsetAddress (h : s.sameButRegister j u) {i : Nat} (hi : i ≠ j) (offset : Nat) :
    u.offsetAddress i offset = s.offsetAddress i offset := by
  rw [State.offsetAddress, h.getRegister hi]; rfl

theorem State.sameButRegister.readWord (h : s.sameButRegister j u) (a : Nat) : u.readWord a = s.readWord a := by
  rw [h.1]; rfl

theorem State.sameButRegister.writeWord (h : s.sameButRegister j u) (a : Nat) (v : Word) :
    ResultSameButRegister j (s.writeWord a v) (u.writeWord a v) := by
  obtain ⟨hu, hregs⟩ := h
  rw [hu]
  rcases Nat.lt_or_ge (a + 3) s.memSize with hin | hout
  · rw [State.writeWord_inside _ _ hin, State.writeWord_inside _ _ (by exact hin)]
    exact .ok ⟨rfl, hregs⟩
  · rw [State.writeWord_outside _ _ hout, State.writeWord_outside _ _ (by exact hout)]
    exact .error _

theorem State.sameButRegister.setRegister (h : s.sameButRegister j u) (i v : Nat) :
    ResultSameButRegister j (s.setRegister i v) (u.setRegister i v) := by
  obtain ⟨hu, hregs⟩ := h
  rcases Nat.lt_or_ge i 128 with hlt | hge
  · rw [s.setRegister_of_lt _ hlt, u.setRegister_of_lt _ hlt]
    refine .ok ⟨by rw [hu], fun k hk hne => ?_⟩
    simp only [Vector.getElem_set, hregs k hk hne]
  · rw [s.setRegister_of_ge _ hge, u.setRegister_of_ge _ hge]
    exact .error _

/-! ### The end of an instruction, and the four instructions -/

theorem State.sameButRegister.advance (h : s.sameButRegister j u) (n : Nat) :
    (s.advance n).sameButRegister j (u.advance n) :=
  ⟨by rw [h.1]; rfl, h.2⟩

theorem State.sameButRegister.raise (h : s.sameButRegister j u) (info : FaultInfo) :
    (s.raise info).sameButRegister j (u.raise info) :=
  ⟨by rw [h.1]; rfl, h.2⟩

theorem State.sameButRegister.retire (h : s.sameButRegister j u) (n : Nat) {x y : Except AccessError State}
    (hxy : ResultSameButRegister j x y) {t : State} (ht : s.retire n x = .next t) :
    ∃ w, u.retire n y = .next w ∧ t.sameButRegister j w := by
  cases hxy with
  | ok hresult => cases ht; exact ⟨_, rfl, hresult.advance n⟩
  | error e => cases ht; exact ⟨_, rfl, h.raise _⟩

/-- From two states that differ in an unread register alone, an instruction gives states that do (R17). -/
theorem State.sameButRegister.exec (h : s.sameButRegister j u) {i : Instr} (hj : j ∉ readsRegister i) {t : State}
    (ht : exec i s = .next t) : ∃ w, exec i u = .next w ∧ t.sameButRegister j w := by
  cases i with
  | loadConst address constant => exact h.retire _ (h.setRegister _ _) ht
  | readMem resultAddr sourceAddr =>
    have hsource : sourceAddr ≠ j := ne_of_mem_of_not_mem (by simp [readsRegister]) hj
    refine h.retire _ ?_ ht
    rw [h.indirectAddress hsource]
    refine .bind _ fun a => ?_
    rw [h.readWord a]
    exact .bind _ fun v => h.setRegister _ _
  | writeMem sourceAddr resultAddr =>
    have hsource : sourceAddr ≠ j := ne_of_mem_of_not_mem (by simp [readsRegister]) hj
    have hresult : resultAddr ≠ j := ne_of_mem_of_not_mem (by simp [readsRegister]) hj
    refine h.retire _ ?_ ht
    rw [h.getRegister hsource, h.indirectAddress hresult]
    exact .bind _ fun v => .bind _ fun a => h.writeWord a v
  | byteSwap resultAddr operandOffset resultOffset operandAddr =>
    have hoperand : operandAddr ≠ j := ne_of_mem_of_not_mem (by simp [readsRegister]) hj
    have hresult : resultAddr ≠ j := ne_of_mem_of_not_mem (by simp [readsRegister]) hj
    refine h.retire _ ?_ ht
    rw [h.offsetAddress hoperand, h.offsetAddress hresult]
    refine .bind _ fun opAddr => .bind _ fun resAddr => ?_
    rw [h.readWord opAddr]
    exact .bind _ fun v => h.writeWord resAddr (bswap32 v)

end

/-- Settles O48: two runs of the instruction from states that differ in the unread register alone. -/
theorem unreadRegisterNoInfluence : Obligations.UnreadRegisterNoInfluence :=
  fun _ s _ _ v hj hunread hexec => (s.sameButRegister_set hj v).exec hunread hexec

end Sys2Proof.Machine
end

section
/-! PROOF. Memory and registers: what each accessor answers on either side of its bound, what `load_program` leaves at
every address, and that a canonical memory is determined by what it reads (20_memory.md R31 to R44). -/

namespace Sys2Proof.Machine

/-! ### The canonical form -/

/-- With rising addresses, the first cell of an address is its only one. -/
theorem Memory.read_of_mem {m : Memory} (h : m.Pairwise fun c d => c.1 < d.1) {c : Host.Cell} (hc : c ∈ m) :
    m.read c.1 = c.2 := by
  induction m with
  | nil => exact absurd hc List.not_mem_nil
  | cons d m ih =>
    obtain ⟨hhead, htail⟩ := List.pairwise_cons.1 h
    obtain ⟨b, w⟩ := d
    rw [Memory.read_cons]
    rcases List.mem_cons.1 hc with rfl | hc
    · exact if_pos rfl
    · have hne : c.1 ≠ b := (hhead c hc).ne'
      rw [if_neg hne, ih htail hc]

/-- The cells of a canonical memory are its listed bytes. -/
theorem Memory.mem_iff_read {m : Memory} (h : m.wf) (c : Host.Cell) :
    c ∈ m ↔ c.2 ≠ Memory.unlisted ∧ m.read c.1 = c.2 := by
  obtain ⟨hrising, hlisted⟩ := h
  refine ⟨fun hc => ⟨hlisted c hc, Memory.read_of_mem hrising hc⟩, fun ⟨hne, hread⟩ => ?_⟩
  have hcell : ∃ d ∈ m, d.1 = c.1 := by
    by_contra hnone
    push Not at hnone
    exact hne (hread.symm.trans (m.read_of_not_mem c.1 hnone))
  obtain ⟨d, hd, haddr⟩ := hcell
  have hval : d.2 = c.2 := by rw [← Memory.read_of_mem hrising hd, haddr, hread]
  rwa [← Prod.ext haddr hval]

/-- Canonical memories that read the same list the same cells, in the same order. -/
theorem Memory.eq_of_read_eq {m n : Memory} (hm : m.wf) (hn : n.wf) (h : ∀ a, m.read a = n.read a) : m = n := by
  have : Std.Asymm fun c d : Host.Cell => c.1 < d.1 := ⟨fun _ _ => Nat.lt_asymm⟩
  exact hm.1.eq_of_mem_iff hn.1 fun c => by rw [Memory.mem_iff_read hm, Memory.mem_iff_read hn, h]

/-- Settles O20: the law of a byte write, and that a canonical memory is determined by what it reads. -/
theorem memoryCanonicalForm : Obligations.MemoryCanonicalForm :=
  ⟨fun _ a v h => Memory.wf_write a v h, fun _ _ => Memory.eq_of_read_eq⟩

/-! ### Loading -/

/-- The bytes after `load_program`'s stores: the given ones inside memory and the range, the old ones elsewhere (R44). -/
theorem Memory.read_load (m : Memory) (size : Nat) (bytes : List Byte) (offset x : Nat) :
    (m.load size bytes offset).read x =
      if offset ≤ x ∧ x < size then (bytes[x - offset]?).getD (m.read x) else m.read x := by
  induction bytes generalizing m offset with
  | nil => simp [Memory.load]
  | cons b bytes ih =>
    have hstore : Memory.read (if offset < size then m.write offset b else m) x =
        if x = offset ∧ offset < size then b else m.read x := by
      split <;> simp [*]
    rw [Memory.load, ih, hstore]
    rcases Nat.lt_trichotomy x offset with hbelow | rfl | habove
    · simp [hbelow.ne, hbelow.not_ge, show ¬ offset + 1 ≤ x by omega]
    · simp
    · have hindex : x - offset = x - (offset + 1) + 1 := by omega
      simp [habove.ne', habove.le, Nat.succ_le_of_lt habove, hindex]

/-- Settles O19, by what `load_program` leaves at each address. -/
theorem loadProgramBytes : Obligations.LoadProgramBytes :=
  fun s bytes offset => ⟨rfl, s.mem.read_load s.memSize bytes offset⟩

/-! ### The accessors of memory -/

theorem State.readByte_inside (s : State) {a : Nat} (h : a < s.memSize) : s.readByte a = .ok (s.mem.read a) :=
  if_neg (Nat.not_le.2 h)

theorem State.readByte_outside (s : State) {a : Nat} (h : s.memSize ≤ a) : s.readByte a = .error ⟨a, .memRead⟩ :=
  if_pos h

theorem State.writeByte_inside (s : State) {a : Nat} (v : Nat) (h : a < s.memSize) :
    s.writeByte a v = .ok { s with mem := s.mem.write a (BitVec.ofNat 8 v) } :=
  if_neg (Nat.not_le.2 h)

theorem State.writeByte_outside (s : State) {a : Nat} (v : Nat) (h : s.memSize ≤ a) :
    s.writeByte a v = .error ⟨a, .memWrite⟩ :=
  if_pos h

/-- Settles O14, by the two sides of the bound and read after write. -/
theorem byteAccessors : Obligations.ByteAccessors := by
  intro s a v
  refine ⟨fun hout => ⟨s.readByte_outside hout, s.writeByte_outside v hout⟩, fun hin =>
    ⟨s.readByte_inside hin, _, s.writeByte_inside v hin, ?_, fun x hx => ?_, rfl⟩⟩
  · rw [Memory.read_write, if_pos rfl]
  · rw [Memory.read_write, if_neg hx]

/-- Settles O15: the word of four bytes has their weighted sum as its value. -/
theorem readWordLittleEndian : Obligations.ReadWordLittleEndian :=
  fun s _ => ⟨s.readWord_outside, fun hin => ⟨_, s.readWord_inside hin, wordOf_toNat _ _ _ _⟩⟩

/-- Settles O16: the stored word is read back, and each address reads the word's byte there or the old one. -/
theorem writeWordStoresFourBytes : Obligations.WriteWordStoresFourBytes := by
  intro s a v
  refine ⟨s.writeWord_outside v, fun hin => ⟨_, s.writeWord_inside v hin, rfl, ?_, fun x => ?_⟩⟩
  · rw [State.readWord_inside _ (by exact hin), Memory.readWord_writeWord]
  · rw [Memory.read_writeWord, byteOf_eq]

/-! ### The accessors of registers -/

/-- Settles O17, by the two sides of the bound. -/
theorem getRegisterReads : Obligations.GetRegisterReads :=
  fun s _ => ⟨s.getRegister_of_lt, s.getRegister_of_ge⟩

/-- Settles O18: register `i` becomes the masked value, every other register keeps its own. -/
theorem setRegisterWritesOne : Obligations.SetRegisterWritesOne := by
  intro s i v
  refine ⟨fun hi => ⟨_, s.setRegister_of_lt v hi, rfl, fun j hj => ?_⟩, s.setRegister_of_ge v⟩
  by_cases hji : j = i
  · subst hji
    rw [if_pos rfl, Vector.getElem_set_self, BitVec.toNat_ofNat]
  · rw [if_neg hji, Vector.getElem_set_ne _ _ (Ne.symm hji)]

end Sys2Proof.Machine
end

section
/-! PROOF. The codec: which bits `pack` places where, and that `unpack` and `pack` undo each other up to the widths and
the padding (30_encoding.md R50 to R52). -/

namespace Sys2Proof

/-! ### The bits of packed fields -/

/-- Packing a list is packing its parts, the second above the first. -/
theorem packValue_append (offset : Nat) (before after : List (Nat × Nat)) :
    packValue offset (before ++ after) =
      packValue offset before ||| packValue (offset + (before.map (·.2)).sum) after := by
  induction before generalizing offset with
  | nil => simp
  | cons f before ih =>
    obtain ⟨v, w⟩ := f
    simp [packValue, ih, Nat.or_assoc, Nat.add_assoc]

/-- A number fits `bits` bits exactly when every bit from there up is zero. -/
theorem lt_two_pow_iff_testBit {v bits : Nat} : v < 2 ^ bits ↔ ∀ k, bits ≤ k → v.testBit k = false :=
  ⟨fun h _ hk => Nat.testBit_lt_two_pow (h.trans_le (Nat.pow_le_pow_right (by decide) hk)),
    Nat.lt_pow_two_of_testBit v⟩

/-- `pack` fills no bit from its last field up. -/
theorem packValue_testBit_of_ge (offset : Nat) (fields : List (Nat × Nat)) {k : Nat}
    (h : offset + (fields.map (·.2)).sum ≤ k) : (packValue offset fields).testBit k = false :=
  lt_two_pow_iff_testBit.1 (packValue_lt offset fields) k h

/-- Bit `j` of a field stands `j` above the widths of the fields before it. -/
theorem packValue_testBit_field (before after : List (Nat × Nat)) (value : Nat) {width j : Nat} (hj : j < width) :
    (packValue 0 (before ++ (value, width) :: after)).testBit ((before.map (·.2)).sum + j) = value.testBit j := by
  have hbelow := packValue_testBit_of_ge 0 before (k := (before.map (·.2)).sum + j) (by omega)
  have habove := packValue_testBit_of_lt ((before.map (·.2)).sum + width) after
    ((before.map (·.2)).sum + j) (by omega)
  simp [packValue_append, packValue, Nat.testBit_or, Nat.testBit_shiftLeft, Nat.testBit_mod_two_pow, hbelow, habove,
    hj]

theorem streamBit_pack (fields : List (Nat × Nat)) (k : Nat) :
    streamBit (pack fields) k = (packValue 0 fields).testBit k := by
  rw [streamBit_eq_testBit, leNat_pack]

/-- The stream bits from the last field up are zero (R50). -/
theorem streamBit_pack_padding (fields : List (Nat × Nat)) {k : Nat} (h : (fields.map (·.2)).sum ≤ k) :
    streamBit (pack fields) k = false := by
  rw [streamBit_pack, packValue_testBit_of_ge 0 fields (by omega)]

/-- Settles O1: the bits of the packed value, below, in and above a field. -/
theorem packPlacesFields : Obligations.PackPlacesFields := by
  intro fields
  refine ⟨pack_length fields, ?_, fun k hk => streamBit_pack_padding fields hk⟩
  rintro before after value width rfl j hj
  rw [streamBit_pack, packValue_testBit_field before after value hj]

/-! ### `unpack` against `pack` -/

@[simp] theorem unpackValues_length (offset : Nat) (widths : List Nat) (w : Nat) :
    (unpackValues offset widths w).length = widths.length := by
  induction widths generalizing offset with
  | nil => rfl
  | cons width widths ih => simp [unpackValues, ih]

/-- Packing the slices of `w` gives the bits of `w` that the slices cover. -/
theorem packValue_unpackValues (offset : Nat) (widths : List Nat) (w : Nat) :
    packValue offset ((unpackValues offset widths w).zip widths) = slice w offset widths.sum <<< offset := by
  induction widths generalizing offset with
  | nil => simp [unpackValues, slice, Nat.mod_one]
  | cons width widths ih =>
    apply Nat.eq_of_testBit_eq
    intro k
    simp only [unpackValues, List.zip_cons_cons, packValue, ih, List.sum_cons, slice, Nat.testBit_or,
      Nat.testBit_shiftLeft, Nat.testBit_mod_two_pow, Nat.testBit_shiftRight]
    by_cases hbelow : k < offset
    · simp [hbelow.not_ge, show ¬ offset + width ≤ k by omega]
    by_cases hfirst : k < offset + width
    · simp [hfirst.not_ge, show k - offset < width by omega, show k - offset < width + widths.sum by omega]
    · have hrest : k - (offset + width) < widths.sum ↔ k - offset < width + widths.sum := by omega
      simp [hrest, show offset ≤ k by omega, show offset + width ≤ k by omega, show ¬ k - offset < width by omega]

/-- R52, left to right: unpacking packed fields, anywhere in a buffer. -/
theorem unpack_pack (fields : List (Nat × Nat)) (before rest : List Byte) :
    unpack (before ++ pack fields ++ rest) before.length (fields.map (·.2)) =
      some (fields.map fun f => f.1 % 2 ^ f.2, (pack fields).length) := by
  refine unpack_eq_some.2 ⟨pack_length fields, by simp, ?_⟩
  have hvalues := unpackValues_packValue 0 fields 0 (by decide)
  simpa using hvalues.symm

/-- R52, right to left: packing unpacked values gives the bytes exactly when their padding is zero. -/
theorem pack_unpackValues_iff (widths : List Nat) (bytes : List Byte) (hlen : bytes.length = bytesFor widths.sum) :
    pack ((unpackValues 0 widths (leNat bytes)).zip widths) = bytes ↔
      ∀ k, widths.sum ≤ k → streamBit bytes k = false := by
  have hwidths : ((unpackValues 0 widths (leNat bytes)).zip widths).map (·.2) = widths :=
    List.map_snd_zip (by simp)
  have hvalue : leNat (pack ((unpackValues 0 widths (leNat bytes)).zip widths)) = leNat bytes % 2 ^ widths.sum := by
    rw [leNat_pack, packValue_unpackValues]
    simp [slice]
  calc pack ((unpackValues 0 widths (leNat bytes)).zip widths) = bytes
    _ ↔ leNat bytes % 2 ^ widths.sum = leNat bytes :=
      ⟨fun h => by rw [← hvalue, h],
        fun h => leNat_injective (by rw [pack_length, hwidths, hlen]) (hvalue.trans h)⟩
    _ ↔ leNat bytes < 2 ^ widths.sum := Nat.mod_eq_iff_lt (Nat.two_pow_pos _).ne'
    _ ↔ ∀ k, widths.sum ≤ k → streamBit bytes k = false := by
      simp only [streamBit_eq_testBit, lt_two_pow_iff_testBit]

/-- Settles O2: one direction is the slices of a packed value, the other the packed value of slices. -/
theorem unpackInvertsPack : Obligations.UnpackInvertsPack := by
  refine ⟨unpack_pack, fun widths values bytes hlen hunpack => ?_⟩
  obtain ⟨-, -, rfl⟩ := unpack_eq_some.1 hunpack
  simpa using pack_unpackValues_iff widths bytes hlen

end Sys2Proof
end

section
/-! PROOF. The encoder and the decoder: what the decoder answers at each offset of a buffer, and that it gives back what
was encoded (30_encoding.md R55, R64 to R75). -/

namespace Sys2Proof

/-! ### What the decoder answers -/

theorem decode_illegal {buffer : List Byte} {o : Nat} (h : o < buffer.length)
    (hop : opcodeNibble buffer[o] ∉ [2, 5, 7, 13]) :
    decode buffer o = .error (.unknownOpcode (opcodeNibble buffer[o])) := by
  rw [decode_inside _ _ h, Opcode.ofCode_eq_none.2 hop]

section
variable {buffer : List Byte} {o : Nat} {op : Opcode}

theorem decode_truncated (h : o < buffer.length) (hop : opcodeNibble buffer[o] = op.code)
    (hshort : buffer.length < o + op.length) :
    decode buffer o = .error (.truncatedInstruction o op.length (buffer.length - o)) := by
  rw [decode_inside _ _ h, Opcode.ofCode_eq_some.2 hop]
  exact if_pos (by omega)

theorem decode_complete (h : o < buffer.length) (hop : opcodeNibble buffer[o] = op.code)
    (hin : o + op.length ≤ buffer.length) :
    decode buffer o =
      .ok (op.build (unpackValues 0 op.widths (leNat ((buffer.drop o).take op.length))), op.length) := by
  rw [decode_inside _ _ h, Opcode.ofCode_eq_some.2 hop]
  exact if_neg (by omega)

end

/-- The bytes of one instruction, anywhere in a buffer, decode to the slices of their integer. -/
theorem decode_bytes (op : Opcode) (before bytes rest : List Byte) (hlen : bytes.length = op.length)
    (hop : leNat bytes % 16 = op.code) :
    decode (before ++ bytes ++ rest) before.length =
      .ok (op.build (unpackValues 0 op.widths (leNat bytes)), op.length) := by
  have hpos : 0 < bytes.length := by have := op.length_pos; omega
  have hfirst : (before ++ bytes ++ rest)[before.length]'(by simp; omega) = bytes[0] := by simp [hpos]
  rw [decode_complete (op := op) (by simp; omega) (by rw [hfirst, opcodeNibble_eq_leNat, hop]) (by simp; omega)]
  simp [← hlen]

/-! ### What the encoder gives -/

/-- `pack` keeps the low bits of each value (R68). -/
theorem packValue_reduced (offset : Nat) (fields : List (Nat × Nat)) :
    packValue offset (fields.map fun f => (f.1 % 2 ^ f.2, f.2)) = packValue offset fields := by
  induction fields generalizing offset with
  | nil => rfl
  | cons f fields ih => simp [packValue, ih]

theorem pack_reduced (fields : List (Nat × Nat)) :
    pack (fields.map fun f => (f.1 % 2 ^ f.2, f.2)) = pack fields := by
  simp [pack, packValue_reduced, Function.comp_def]

theorem Opcode.pack_packList_length (op : Opcode) (named : List (FieldName × Nat)) :
    (pack (op.packList named)).length = op.length := by
  rw [pack_length, packList_widths]; rfl

/-- The values of a row, reduced, are the slices of what they pack to. -/
theorem Opcode.unpackValues_packList (op : Opcode) (named : List (FieldName × Nat)) :
    unpackValues 0 op.widths (packValue 0 (op.packList named)) = (op.packList named).map fun f => f.1 % 2 ^ f.2 := by
  simpa using unpackValues_packValue 0 (op.packList named) 0 (by decide)

/-- A packed row has its opcode in the low nibble (R63). -/
theorem Opcode.packValue_packList_mod (op : Opcode) (named : List (FieldName × Nat)) :
    packValue 0 (op.packList named) % 16 = op.code := by
  have hslices := op.unpackValues_packList named
  obtain ⟨hfirst, -⟩ := List.cons.inj hslices
  simpa [slice, Nat.mod_eq_of_lt op.code_lt] using hfirst

/-- A packed row, anywhere in a buffer, decodes to its instruction with every field reduced (R75). -/
theorem decode_pack (op : Opcode) (named : List (FieldName × Nat)) (before rest : List Byte) :
    decode (before ++ pack (op.packList named) ++ rest) before.length =
      .ok ((Instr.ofFields (fieldValue named) op).truncate, (pack (op.packList named)).length) := by
  have hlen := op.pack_packList_length named
  rw [decode_bytes op _ _ _ hlen (by rw [leNat_pack, op.packValue_packList_mod]), hlen, leNat_pack,
    op.unpackValues_packList, op.build_packList]

/-- Settles O3: a row's fields come back reduced, and those of a well-formed instruction are. -/
theorem decodeInvertsEncode : Obligations.DecodeInvertsEncode := by
  intro i before rest hwf
  rw [Instr.encode, decode_pack, i.ofFields_named, Instr.truncate_of_wf hwf]

/-! ### Named fields -/

theorem AbstractInstr.encode_legal {a : AbstractInstr} {op : Opcode} (h : Opcode.ofCode a.opcode = some op) :
    a.encode = .ok (pack (op.packList a.fields)) := by
  rw [encode, h]

/-- Settles O4, by the two sides of the encoder's table lookup. -/
theorem namedEncodeDecodes : Obligations.NamedEncodeDecodes := by
  intro a
  refine ⟨fun op hop => ⟨_, AbstractInstr.encode_legal hop, decode_pack op a.fields⟩, fun hillegal => ?_⟩
  rw [AbstractInstr.encode, Opcode.ofCode_eq_none.2 hillegal]

/-- The list `pack` is given for a reduced instruction is the reduced list. -/
theorem Instr.packList_truncate (i : Instr) :
    i.truncate.opcode.packList i.truncate.named =
      (i.opcode.packList i.named).map fun f => (f.1 % 2 ^ f.2, f.2) := by
  cases i <;> rfl

theorem Instr.encode_truncate (i : Instr) : i.truncate.encode = i.encode := by
  rw [encode, packList_truncate, pack_reduced, encode]

/-- The instruction made from named fields gives `pack` the same list as the named fields. -/
theorem Opcode.packList_ofFields (op : Opcode) (named : List (FieldName × Nat)) :
    op.packList (Instr.ofFields (fieldValue named) op).named = op.packList named := by
  cases op <;> rfl

theorem Instr.encode_ofFields (op : Opcode) (named : List (FieldName × Nat)) :
    (Instr.ofFields (fieldValue named) op).encode = pack (op.packList named) := by
  rw [encode, Opcode.opcode_ofFields, op.packList_ofFields]

/-- Settles O5: `pack` sees the low bits of each value alone. -/
theorem encodeTruncates : Obligations.EncodeTruncates := by
  refine ⟨fun i => ⟨i.encode_truncate.symm, i.truncate_wf⟩, fun op fields => ?_⟩
  rw [AbstractInstr.encode_legal op.ofCode_code, Instr.encode_truncate, Instr.encode_ofFields]

/-! ### Lengths and padding of encoded instructions -/

theorem Instr.encode_length (i : Instr) : i.encode.length = i.length :=
  i.opcode.pack_packList_length i.named

theorem Instr.encode_padding (i : Instr) {k : Nat} (h : i.opcode.totalBits ≤ k) : streamBit i.encode k = false :=
  streamBit_pack_padding _ (by rwa [Opcode.packList_widths])

/-- Settles O6: the table's lengths and bit counts, variant by variant. -/
theorem encodedLengthAndPadding : Obligations.EncodedLengthAndPadding := by
  refine ⟨fun _ => rfl, fun i => ?_, fun i k hk => i.encode_padding ?_⟩
  · rw [i.encode_length]
    cases i <;> simp
  · cases i <;> exact hk

/-! ### What decodes -/

/-- Settles O8: the decoder's length check, with the table's lengths. -/
theorem shortInstructionTruncated : Obligations.ShortInstructionTruncated := by
  intro buffer o h op hop
  exact ⟨op.length, by cases op <;> rfl, decode_truncated h hop, fun hin => ⟨_, decode_complete h hop hin⟩⟩

/-- Settles O9: the slices that the decoder builds from, named by the row of each variant. -/
theorem decodedFieldsAreSlices : Obligations.DecodedFieldsAreSlices := by
  intro buffer o h w
  have hslices := fun op : Opcode => decode_complete (op := op) h
  simp only [Opcode.build_unpackValues] at hslices
  refine ⟨hslices .loadConst, hslices .readMem, hslices .writeMem, hslices .byteSwap, fun i len hok => ?_⟩
  obtain ⟨_, _, -, -, -, -, hwf, -⟩ := decode_eq_ok hok
  exact hwf

/-- Settles O10, by what a successful decode says. -/
theorem decodedIsWellFormed : Obligations.DecodedIsWellFormed := by
  intro buffer o i len hok
  obtain ⟨_, op, -, hlen, hin, hop, hwf, -⟩ := decode_eq_ok hok
  exact ⟨hwf, by rw [hlen, Instr.length, hop], hin⟩

/-! ### Padding -/

/-- The low nibble does not see the bits cleared above it. -/
theorem mod_two_pow_mod_sixteen (w : Nat) {bits : Nat} (h : 4 ≤ bits) : w % 2 ^ bits % 16 = w % 16 :=
  Nat.mod_mod_of_dvd w (Nat.pow_dvd_pow 2 h)

theorem Opcode.four_le_totalBits (op : Opcode) : 4 ≤ op.totalBits := Nat.le_add_right 4 _

theorem Opcode.totalBits_le (op : Opcode) : op.totalBits ≤ 8 * op.length := by
  unfold Opcode.length bytesFor
  omega

/-- The bytes of a word with a legal nibble decode to the slices of the word, whatever stands above them. -/
theorem decode_leBytes (op : Opcode) (w : Nat) (rest : List Byte) (hop : w % 16 = op.code) :
    decode (leBytes op.length w ++ rest) 0 = .ok (op.build (unpackValues 0 op.widths w), op.length) := by
  have hbits := op.totalBits_le
  have hvalue : leNat (leBytes op.length w) = w % 2 ^ (8 * op.length) := by rw [leNat_leBytes, Nat.pow_mul]
  have hnibble : leNat (leBytes op.length w) % 16 = op.code := by
    rw [hvalue, mod_two_pow_mod_sixteen w (op.four_le_totalBits.trans hbits), hop]
  have hdecode := decode_bytes op [] (leBytes op.length w) rest (leBytes_length _ _) hnibble
  rwa [hvalue, unpackValues_mod 0 op.widths w _ (by rwa [Nat.zero_add])] at hdecode

/-- Settles O11: the slices of a word end where its padding begins. -/
theorem paddingIgnored : Obligations.PaddingIgnored := by
  intro op w rest hop
  have hcleared : w % 2 ^ op.totalBits % 16 = op.code := by rw [mod_two_pow_mod_sixteen w op.four_le_totalBits, hop]
  refine ⟨_, decode_leBytes op w rest hop, ?_⟩
  rw [decode_leBytes op _ rest hcleared, unpackValues_mod 0 op.widths w op.totalBits (Nat.zero_add _).le]

/-! ### The window decoder -/

/-- The window's bytes before the end of the buffer are the buffer's. -/
theorem decodeWindowBytes_take (fill : Nat → Byte) {buffer : List Byte} {o n : Nat} (hmax : n ≤ maxLength)
    (hin : o + n ≤ buffer.length) : (decodeWindowBytes fill buffer o).take n = (buffer.drop o).take n := by
  apply List.ext_getElem
  · simp [decodeWindowBytes]; omega
  · intro k hk _
    have hkn : k < n := by simp at hk; omega
    simp [decodeWindowBytes, List.getElem?_eq_getElem (show o + k < buffer.length by omega)]

theorem decodeWindowBytes_eq_cons (fill : Nat → Byte) {buffer : List Byte} {o : Nat} (h : o < buffer.length) :
    ∃ others, decodeWindowBytes fill buffer o = buffer[o] :: others := by
  simp [decodeWindowBytes, maxLength, List.range_succ_eq_map, List.getElem?_eq_getElem h]

/-- R74: from six bytes and the count of those present the window decoder does what `decode` does on the rest. -/
theorem decodeWindow_eq (fill : Nat → Byte) {buffer : List Byte} {o : Nat} (h : o < buffer.length) :
    decodeWindow (decodeWindowBytes fill buffer o) (buffer.length - o) = decode (buffer.drop o) 0 := by
  obtain ⟨others, hcons⟩ := decodeWindowBytes_eq_cons fill h
  have hfirst : (buffer.drop o)[0]'(by simpa using h) = buffer[o] := by simp
  have htake := fun op : Opcode => decodeWindowBytes_take fill (buffer := buffer) (o := o) op.length_le
  rw [decode_inside _ _ (by simpa using h), hfirst]
  rw [hcons] at htake ⊢
  rw [decodeWindow]
  cases hop : Opcode.ofCode (opcodeNibble buffer[o]) with
  | none => rfl
  | some op =>
    simp only [List.length_drop, List.drop_zero, Nat.sub_zero]
    split
    · rfl
    · rw [htake op (by omega)]

/-- Inside the buffer the decoder succeeds exactly on a legal nibble with its bytes present. -/
theorem decode_eq_ok_iff {buffer : List Byte} {o : Nat} (h : o < buffer.length) {i : Instr} {len : Nat} :
    decode buffer o = .ok (i, len) ↔ ∃ op : Opcode, opcodeNibble buffer[o] = op.code ∧
      op.length ≤ buffer.length - o ∧ len = op.length ∧
      i = op.build (unpackValues 0 op.widths (leNat ((buffer.drop o).take op.length))) := by
  constructor
  · intro hok
    obtain ⟨_, op, hop, rfl, hin, -, -, hi⟩ := decode_eq_ok hok
    exact ⟨op, hop, by omega, rfl, hi⟩
  · rintro ⟨op, hop, hin, rfl, rfl⟩
    exact decode_complete h hop (by omega)

/-- Settles O12: both decoders see the nibble, the byte count and the bytes of the instruction alone. -/
theorem windowDecoderAgrees : Obligations.WindowDecoderAgrees := by
  intro fill buffer o h
  refine ⟨decodeWindow_eq fill h, fun i len => ?_⟩
  rw [decode_eq_ok_iff h, decode_eq_ok_iff (by simpa using h)]
  simp

/-! ### Vectors of the source -/

/-- Settles O13, by running the decoder on each vector. -/
theorem sourceVectorsDecode : Obligations.SourceVectorsDecode :=
  ⟨by decide, by decide, by decide, by decide⟩

end Sys2Proof

namespace Sys2Proof.Machine

/-- The state after a fault is taken differs in status and record alone (R104). -/
theorem State.faultedAs_raise (s : State) (info : FaultInfo) : s.faultedAs info (s.raise info) :=
  ⟨rfl, rfl, rfl, rfl, rfl, rfl, rfl⟩

/-- Settles O7: the decoder's answer to each kind of nibble, and the step that takes its failure. -/
theorem illegalNibbleRefused : Obligations.IllegalNibbleRefused := by
  intro buffer o h
  refine ⟨fun hillegal => ⟨decode_illegal h hillegal, ?_⟩, fun op hop hin => ?_⟩
  · rintro s hrun rfl rfl
    exact ⟨_, step_error hrun h (decode_illegal h hillegal), s.faultedAs_raise _⟩
  · exact ⟨_, decode_complete h hop hin, op.opcode_build _, op.build_wf _⟩

end Sys2Proof.Machine
end

section
/-! PROOF. The engine: every step answers, what the step is at each kind of `pc`, how `pc` moves, and that every run
ends (40_engine.md R77 to R84). -/

namespace Sys2Proof.Machine

/-! ### Every step answers -/

/-- Every instruction ends in `retire`, so it answers with a next state on any operands (R81). -/
theorem exec_next (i : Instr) (s : State) : ∃ t, exec i s = .next t := by
  cases i with
  | loadConst address constant => exact s.retire_next _ _
  | readMem resultAddr sourceAddr => exact s.retire_next _ _
  | writeMem sourceAddr resultAddr => exact s.retire_next _ _
  | byteSwap resultAddr operandOffset resultOffset operandAddr => exact s.retire_next _ _

/-- Every step answers with a next state (R78). -/
theorem step_next (s : State) : ∃ t, step s = .next t := by
  by_cases hrun : s.status = .running
  · rcases Nat.lt_or_ge s.pc s.prog.length with hpc | hend
    · cases hfetch : s.fetch with
      | error e => exact ⟨_, step_error hrun hpc hfetch⟩
      | ok fetched =>
        obtain ⟨i, len⟩ := fetched
        rw [step_ok hrun hfetch]
        exact exec_next i s
    · exact ⟨_, step_end hrun hend⟩
  · exact ⟨_, step_stopped hrun⟩

/-- The step's answer is the state after it. -/
theorem step_eq_afterStep (s : State) : step s = .next s.afterStep := by
  obtain ⟨t, hstep⟩ := step_next s
  rw [State.afterStep_of_next hstep, hstep]

/-- Settles O37: the two totality laws. -/
theorem stepAnswersNext : Obligations.StepAnswersNext := ⟨step_next, exec_next⟩

/-! ### The step at each kind of `pc` -/

/-- Settles O32: what `fetch` gives is what the stream at `pc` decodes to. -/
theorem stepRunsDecoded : Obligations.StepRunsDecoded :=
  fun _ _ _ hrun hdecode => step_ok hrun hdecode

/-- Settles O33: the encoding at `pc` decodes to its instruction (`decodeInvertsEncode`), which the step runs. -/
theorem stepRunsEncoded : Obligations.StepRunsEncoded := by
  intro s i before rest hrun hwf hprog hpc
  have hdecode := decodeInvertsEncode i before rest hwf
  rw [← hprog, ← hpc] at hdecode
  exact stepRunsDecoded s i _ hrun hdecode

/-- Settles O34: the step is `endOfStream`, which writes the status alone. -/
theorem endOfStreamStops : Obligations.EndOfStreamStops :=
  fun _ hrun hend => step_end hrun hend

/-- Settles O35: the fault taken carries the decoder's data, a truncation's offset being the one decoded at. -/
theorem decodeFaultTaken : Obligations.DecodeFaultTaken := by
  intro s e hrun hpc hdecode
  refine ⟨_, step_error hrun hpc hdecode, ?_⟩
  rcases decode_eq_error hpc hdecode with ⟨rfl, -⟩ | ⟨op, -, -, rfl⟩
  · exact ⟨s.faultedAs_raise _, rfl⟩
  · exact ⟨s.faultedAs_raise _, rfl, rfl⟩

/-! ### How `pc` moves -/

/-- A step leaves the machine stopped with `pc` kept, or RUNNING past the bytes of the fetched instruction (R83). -/
theorem step_pc_cases {s t : State} (h : step s = .next t) :
    (t.status ≠ .running ∧ t.pc = s.pc) ∨
      (t.status = .running ∧ t.pc ≤ s.prog.length ∧
        ∃ i, s.fetch = .ok (i, i.length) ∧ t.pc = s.pc + i.length) := by
  rcases step_cases h with ⟨hstopped, rfl⟩ | ⟨-, -, rfl⟩ | ⟨-, -, _, -, rfl⟩ | ⟨hrun, -, i, len, hfetch, hexec⟩
  · exact .inl ⟨hstopped, rfl⟩
  · exact .inl ⟨by simp, rfl⟩
  · exact .inl ⟨by simp, rfl⟩
  · obtain ⟨-, hlen, hinside⟩ := decodedIsWellFormed _ _ _ _ hfetch
    subst hlen
    rcases exec_of_fetch_cases hfetch hexec with ⟨_, _, -, rfl⟩ | ⟨_, rfl⟩
    · exact .inr ⟨hrun, hinside, i, hfetch, rfl⟩
    · exact .inl ⟨by simp, rfl⟩

/-- Settles O39, by the two ways a step leaves `pc`. -/
theorem pcAdvancesByLength : Obligations.PcAdvancesByLength := by
  intro s t hstep
  rcases step_pc_cases hstep with ⟨hstopped, hpc⟩ | ⟨hrun, hinside, i, hfetch, hpc⟩
  · exact ⟨fun _ hrun => absurd hrun hstopped, fun _ => hpc⟩
  · refine ⟨fun _ _ => ⟨i, i.length, hfetch, hpc, hinside, ?_⟩, fun hstopped => absurd hrun hstopped⟩
    cases i <;> simp

/-! ### Every run ends -/

/-- A step that stays RUNNING uses up at least three of the bytes left. -/
theorem step_running_bytesLeft {s t : State} (h : step s = .next t) (hrun : t.status = .running) :
    t.prog.length - t.pc + 3 ≤ s.prog.length - s.pc := by
  rcases step_pc_cases h with ⟨hstopped, -⟩ | ⟨-, hinside, i, -, hpc⟩
  · exact absurd hrun hstopped
  · have hlen : 3 ≤ i.length := i.opcode.length_pos
    rw [(step_parameters h).1]
    omega

/-- With fewer than `3 n` bytes left a run has ended after `n` steps (R84). -/
theorem State.after_stopped_of_bytesLeft {s : State} {n : Nat} (h : s.prog.length - s.pc < 3 * n) :
    (s.after n).status ≠ .running := by
  induction n generalizing s with
  | zero => omega
  | succ n ih =>
    rw [State.after_succ]
    by_cases hrun : s.afterStep.status = .running
    · have hleft := step_running_bytesLeft (step_eq_afterStep s) hrun
      exact ih (by omega)
    · rwa [State.after_of_stopped hrun]

/-- Settles O44: a third of the bytes left, and one step more, is enough steps. -/
theorem everyRunEnds : Obligations.EveryRunEnds :=
  fun _ => State.after_stopped_of_bytesLeft (by omega)

end Sys2Proof.Machine
end

section
/-! PROOF. LoadConst: its encoding cut short or with padding set, its effect in every state, and the bound on what it
can load (41_loadconst.md R89, R90). The two lemmas on encodings hold for every instruction. -/

namespace Sys2Proof

/-! ### An encoding cut short, and an encoding with padding set -/

/-- An encoded instruction has its opcode in the low nibble (R63). -/
theorem Instr.leNat_encode_mod (i : Instr) : leNat i.encode % 16 = i.opcode.code := by
  rw [encode, leNat_pack, Opcode.packValue_packList_mod]

/-- A proper part of an encoding, from its first byte, has the opcode and too few bytes (R71). -/
theorem decode_take_encode (i : Instr) {n : Nat} (hpos : 0 < n) (hshort : n < i.length) :
    decode (i.encode.take n) 0 = .error (.truncatedInstruction 0 i.length n) := by
  have hencode : i.encode.length = i.length := i.encode_length
  have hlen : (i.encode.take n).length = n := by rw [List.length_take]; omega
  have hnibble : opcodeNibble ((i.encode.take n)[0]'(by omega)) = i.opcode.code := by
    rw [List.getElem_take, opcodeNibble_eq_leNat _ (by omega), i.leNat_encode_mod]
  have hdecode := decode_truncated (by omega) hnibble (by rw [hlen, Nat.zero_add]; exact hshort)
  rwa [hlen] at hdecode

/-- A word that agrees with an encoding below the padding decodes to the instruction encoded (R65). -/
theorem decode_leBytes_of_mod_eq {i : Instr} (hwf : i.wf = true) {w : Nat}
    (hw : w % 2 ^ i.opcode.totalBits = leNat i.encode) : decode (leBytes i.length w) 0 = .ok (i, i.length) := by
  have hnibble : w % 16 = i.opcode.code := by
    rw [← mod_two_pow_mod_sixteen w i.opcode.four_le_totalBits, hw, i.leNat_encode_mod]
  have hbytes : leBytes i.length (leNat i.encode) = i.encode := by rw [← i.encode_length, leBytes_leNat]
  have hencoded : decode i.encode 0 = .ok (i, i.length) := by
    simpa [i.encode_length] using decodeInvertsEncode i [] [] hwf
  obtain ⟨j, hpadded, hcleared⟩ := paddingIgnored i.opcode w [] hnibble
  rw [List.append_nil, ← Instr.length] at hpadded hcleared
  rw [hw, hbytes, hencoded] at hcleared
  rw [hpadded, ← hcleared]

theorem Instr.wf_loadConst {address constant : Nat} :
    (Instr.loadConst address constant).wf = true ↔ address < 128 ∧ constant < 2 ^ 27 := by
  simp [wf, wfReg, wfConstant]

/-- The integer a LoadConst within its widths spells (R57). -/
theorem leNat_encode_loadConst {address constant : Nat} (ha : address < 2 ^ 7) (hc : constant < 2 ^ 27) :
    leNat (Instr.loadConst address constant).encode = 2 + address * 2 ^ 4 + constant * 2 ^ 11 := by
  obtain ⟨hvalue, -⟩ := Laws.Encoding.loadConst address constant
  rw [hvalue, Laws.Encoding.value, Nat.mod_eq_of_lt ha, Nat.mod_eq_of_lt hc]

end Sys2Proof

namespace Sys2Proof.Machine

/-! ### The effect -/

/-- LoadConst completes in every state: its register gets the constant, `pc` moves, nothing else changes (R89). -/
theorem exec_loadConst (s : State) {address constant : Nat} (ha : address < 128) (hc : constant < 2 ^ 32) :
    ∃ t, exec (.loadConst address constant) s = .next t ∧ t.pc = s.pc + 5 ∧ s.sameButRegsPc t ∧
      ∀ (j : Nat) (_ : j < 128), (t.regs[j]).toNat = if j = address then constant else (s.regs[j]).toNat := by
  obtain ⟨u, hset, -, hregs⟩ := (setRegisterWritesOne s address constant).1 ha
  rw [s.setRegister_of_lt constant ha] at hset
  cases hset
  rw [Nat.mod_eq_of_lt hc] at hregs
  exact ⟨_, execLoadConst_eq s constant ha, rfl, ⟨fun _ => rfl, rfl, rfl, rfl, rfl, rfl⟩, hregs⟩

/-- Settles O21: the effect, the integer the encoding spells, and the two lemmas on encodings at LoadConst. -/
theorem loadConstSetsRegister : Obligations.LoadConstSetsRegister := by
  intro address constant ha hc
  have hvalue := leNat_encode_loadConst ha hc
  have hlength := (Instr.loadConst address constant).encode_length
  have htruncated := @decode_take_encode (.loadConst address constant)
  have hpadded := @decode_leBytes_of_mod_eq (.loadConst address constant) (Instr.wf_loadConst.2 ⟨ha, hc⟩)
  rw [Instr.length_loadConst] at hlength htruncated hpadded
  refine ⟨fun s => exec_loadConst s ha (by omega), hvalue, hlength, fun _ => htruncated, fun padding _ => hpadded ?_⟩
  have hbits : (Instr.loadConst address constant).opcode.totalBits = 38 := rfl
  rw [hvalue, hbits]
  omega

/-- Settles O31: a fetched constant is within its 27 bits, and the register gets the constant. -/
theorem loadConstBelowTwoTo27 : Obligations.LoadConstBelowTwoTo27 := by
  intro s t address constant len ha hrun hfetch hstep
  obtain ⟨hwf, -⟩ := decodedIsWellFormed _ _ _ _ hfetch
  obtain ⟨-, hc⟩ := Instr.wf_loadConst.1 hwf
  obtain ⟨u, hexec, -, -, hregs⟩ := exec_loadConst s ha (constant := constant) (by omega)
  rw [step_ok hrun hfetch, hexec] at hstep
  cases hstep
  rwa [hregs address ha, if_pos rfl]

end Sys2Proof.Machine
end

section
/-! PROOF. ReadMem and WriteMem: their effect inside memory, their fault outside it, and what a load near a stored word
gives (42_readmem_writemem.md R91 to R93). -/

namespace Sys2Proof.Machine

/-! ### ReadMem -/

/-- Settles O22: the law of a ReadMem inside memory, and read after write in the register file. -/
theorem readMemLoadsWord : Obligations.ReadMemLoadsWord := by
  intro s resultAddr sourceAddr hr hq hin
  refine ⟨_, execReadMem_inside s hr hq hin, rfl, ⟨fun _ => rfl, rfl, rfl, rfl, rfl, rfl⟩, fun j hj => ?_⟩
  rw [State.advance_regs, Vector.getElem_set]
  simp only [eq_comm]

/-- Settles O25, by the law of a ReadMem outside memory. -/
theorem readMemFaults : Obligations.ReadMemFaults :=
  fun s _ _ _ hq hout => ⟨_, execReadMem_outside s hq hout, s.faultedAs_raise _⟩

/-! ### WriteMem -/

/-- Settles O23: the law of a WriteMem inside memory, and the bytes a stored word leaves at each address. -/
theorem writeMemStoresWord : Obligations.WriteMemStoresWord := by
  intro s sourceAddr resultAddr hp hr hin
  refine ⟨_, execWriteMem_inside s hp hr hin, rfl, ⟨rfl, rfl, rfl, rfl, rfl⟩, fun x => ?_⟩
  rw [State.advance_mem, Memory.read_writeWord, byteOf_eq]

/-- Settles O26, by the law of a WriteMem outside memory. -/
theorem writeMemFaults : Obligations.WriteMemFaults :=
  fun s _ _ hp hr hout => ⟨_, execWriteMem_outside s hp hr hout, s.faultedAs_raise _⟩

/-! ### A load after a store -/

/-- A word depends on its four bytes alone (R32). -/
theorem Memory.readWord_congr {m n : Memory} {a : Nat} (h : ∀ k, k < 4 → m.read (a + k) = n.read (a + k)) :
    m.readWord a = n.readWord a := by
  have h0 : m.read a = n.read a := h 0 (by decide)
  rw [readWord, readWord, h0, h 1 (by decide), h 2 (by decide), h 3 (by decide)]

/-- The word one byte higher drops the lowest byte and takes in the byte past the top (R32). -/
theorem Memory.readWord_succ_toNat (m : Memory) (a : Nat) :
    (m.readWord (a + 1)).toNat = (m.readWord a).toNat / 2 ^ 8 + (m.read (a + 4)).toNat * 2 ^ 24 := by
  have hlow := (m.read a).isLt
  simp only [readWord, wordOf_toNat, Nat.add_assoc, Nat.reduceAdd]
  omega

/-- A word that starts `d` bytes up is the word at `a` shifted down, the low `d` bytes of the next word above it (R93). -/
theorem Memory.readWord_add_toNat (m : Memory) (a : Nat) {d : Nat} (hd : d < 4) :
    (m.readWord (a + d)).toNat =
      (m.readWord a).toNat / 2 ^ (8 * d) + (m.readWord (a + 4)).toNat % 2 ^ (8 * d) * 2 ^ (32 - 8 * d) := by
  have h1 := m.readWord_succ_toNat a
  have h2 := m.readWord_succ_toNat (a + 1)
  have h3 := m.readWord_succ_toNat (a + 2)
  have hnext : (m.readWord (a + 4)).toNat = _ := wordOf_toNat _ _ _ _
  have hb4 := (m.read (a + 4)).isLt
  have hb5 := (m.read (a + 4 + 1)).isLt
  have hb6 := (m.read (a + 4 + 2)).isLt
  simp only [Nat.add_assoc, Nat.reduceAdd] at h2 h3 hnext hb5 hb6
  match d, hd with
  | 0, _ => simp [Nat.mod_one]
  | 1, _ => rw [h1, hnext]; omega
  | 2, _ => rw [h2, h1, hnext]; omega
  | 3, _ => rw [h3, h2, h1, hnext]; omega

/-- Settles O30: the later state holds the stored word, and a word `d` bytes up is the shifted overlap. -/
theorem storeThenLoad : Obligations.StoreThenLoad := by
  intro s t u p r q x d hp hr hq hx hin hstore hbytes hd haddr hload
  rw [exec, execWriteMem_inside s hp hr hin] at hstore
  cases hstore
  have hword : u.mem.readWord (s.regs[r]).toNat = s.regs[p] := by
    rw [Memory.readWord_congr hbytes, State.advance_mem, Memory.readWord_writeWord]
  refine ⟨_, execReadMem_inside u hx hq hload, ?_⟩
  rw [State.advance_regs, Vector.getElem_set_self, haddr, Memory.readWord_add_toNat _ _ hd, hword]

end Sys2Proof.Machine
end

section
/-! PROOF. ByteSwap: the reversal of a word as masks and shifts, the bytes it leaves inside memory, and its faults
outside it (43_byteswap.md R94 to R97). -/

namespace Sys2Proof.Machine

/-! ### The reversal of a word -/

/-- Words with the same four bytes are equal (R32). -/
theorem eq_of_byteOf_eq {v w : Word} (h : ∀ k, k < 4 → byteOf v k = byteOf w k) : v = w := by
  rw [← wordOf_byteOf v, ← wordOf_byteOf w, h 0 (by decide), h 1 (by decide), h 2 (by decide), h 3 (by decide)]

/-- The mask of byte `j` has the bits of that byte alone. -/
theorem getLsbD_byteMask {j : Nat} (hj : j < 4) (i : Nat) :
    ((0xFF : Word) <<< (8 * j)).getLsbD i = decide (8 * j ≤ i ∧ i < 8 * j + 8) := by
  have hlow (n : Nat) : (0xFF : Word).getLsbD n = decide (n < 8) := by
    rw [show (0xFF : Word) = (BitVec.allOnes 8).setWidth 32 by decide, BitVec.getLsbD_setWidth,
      BitVec.getLsbD_allOnes]
    grind
  rw [BitVec.getLsbD_shiftLeft, hlow]
  grind

/-- The source's masks and shifts are the reversal: bit by bit, with each mask selecting one byte (R95). -/
theorem bswap32_eq_masks (v : Word) :
    bswap32 v = ((v &&& 0xFF) <<< 24) ||| ((v &&& 0xFF00) <<< 8) ||| ((v &&& 0xFF0000) >>> 8) |||
      ((v &&& 0xFF000000) >>> 24) := by
  have hmask0 (i : Nat) : (0xFF : Word).getLsbD i = decide (0 ≤ i ∧ i < 8) :=
    getLsbD_byteMask (j := 0) (by decide) i
  have hmask1 (i : Nat) : (0xFF00 : Word).getLsbD i = decide (8 ≤ i ∧ i < 16) :=
    getLsbD_byteMask (j := 1) (by decide) i
  have hmask2 (i : Nat) : (0xFF0000 : Word).getLsbD i = decide (16 ≤ i ∧ i < 24) :=
    getLsbD_byteMask (j := 2) (by decide) i
  have hmask3 (i : Nat) : (0xFF000000 : Word).getLsbD i = decide (24 ≤ i ∧ i < 32) :=
    getLsbD_byteMask (j := 3) (by decide) i
  apply BitVec.eq_of_getLsbD_eq
  intro i hi
  simp only [bswap32, wordOf, byteOf, BitVec.getLsbD_append, BitVec.getLsbD_extractLsb', BitVec.getLsbD_or,
    BitVec.getLsbD_and, BitVec.getLsbD_shiftLeft, BitVec.getLsbD_ushiftRight, hmask0, hmask1, hmask2, hmask3]
  grind

/-- Reversing the bytes twice gives the word back: byte `k` goes to `3 - k` and back (R95). -/
theorem bswap32_bswap32 (v : Word) : bswap32 (bswap32 v) = v := by
  refine eq_of_byteOf_eq fun k hk => ?_
  rw [byteOf_bswap32 _ hk, byteOf_bswap32 _ (by omega), show 3 - (3 - k) = k by omega]

/-- Settles O29: the masks and shifts bit by bit, the involution byte by byte. -/
theorem bswap32Formula : Obligations.Bswap32Formula :=
  fun v => ⟨bswap32_eq_masks v, fun _ => byteOf_bswap32 v, bswap32_bswap32 v⟩

/-! ### ByteSwap inside memory -/

/-- Byte `k` of a stored word lies at `k` above its address (R32). -/
theorem Memory.read_writeWord_add (m : Memory) (a : Nat) (v : Word) {k : Nat} (hk : k < 4) :
    (m.writeWord a v).read (a + k) = byteOf v k := by
  rw [read_writeWord, if_pos (by omega), Nat.add_sub_cancel_left]

/-- A stored word leaves every byte outside it as it was (R36). -/
theorem Memory.read_writeWord_of_outside (m : Memory) {a x : Nat} (v : Word) (hx : x < a ∨ a + 4 ≤ x) :
    (m.writeWord a v).read x = m.read x := by
  rw [read_writeWord, if_neg (by omega)]

/-- Settles O24: all four bytes are read from the old memory, so where the words overlap makes no difference (R97). -/
theorem byteSwapReversesWord : Obligations.ByteSwapReversesWord := by
  intro s resultAddr operandOffset resultOffset operandAddr hr hp hread hwrite
  refine ⟨_, execByteSwap_inside s hr hp hread hwrite, rfl, ⟨rfl, rfl, rfl, rfl, rfl⟩,
    fun k hk => ?_, fun x hx => ?_⟩
  · rw [State.advance_mem, Memory.read_writeWord_add _ _ _ hk, byteOf_bswap32 _ hk, byteOf_readWord _ _ (by omega),
      Nat.add_sub_assoc (by omega)]
  · rw [State.advance_mem, Memory.read_writeWord_of_outside _ _ hx]

/-! ### ByteSwap outside memory -/

/-- Settles O27, by the laws of a ByteSwap whose operand word is outside memory, and of one whose result word is. -/
theorem byteSwapFaultsReadFirst : Obligations.ByteSwapFaultsReadFirst :=
  fun s _ _ _ _ hr hp =>
    ⟨fun hread => ⟨_, execByteSwap_outside_read s hr hp hread, s.faultedAs_raise _⟩,
      fun hread hwrite => ⟨_, execByteSwap_outside_write s hr hp hread hwrite, s.faultedAs_raise _⟩⟩

/-- Settles O28: a sum of 2^32 or more is outside the memory, so each clause is one of the faults of
`byteSwapFaultsReadFirst`, which record the sum unreduced. -/
theorem addressSumDoesNotWrap : Obligations.AddressSumDoesNotWrap := by
  intro s resultAddr operandOffset resultOffset operandAddr hr hp hsize
  obtain ⟨hreadFault, hwriteFault⟩ :=
    byteSwapFaultsReadFirst s resultAddr operandOffset resultOffset operandAddr hr hp
  refine ⟨fun hoffset hsum => ?_, fun hoffset hread hsum => ?_⟩
  · obtain ⟨t, hexec, hstatus, hfault, -, -, hmem, -, -⟩ := hreadFault (by omega)
    exact ⟨t, hexec, hstatus, hmem, _, hfault, _, rfl, hsum, Nat.add_lt_add (BitVec.isLt _) hoffset⟩
  · obtain ⟨t, hexec, hstatus, hfault, -, -, hmem, -, -⟩ := hwriteFault hread (by omega)
    exact ⟨t, hexec, hstatus, hmem, _, hfault, _, rfl, hsum, Nat.add_lt_add (BitVec.isLt _) hoffset⟩

end Sys2Proof.Machine
end

section
/-! PROOF. Faults: what taking one changes, and the order in which a step's tests fail (60_exceptions.md R104 to R108). -/

namespace Sys2Proof

theorem Instr.wf_readMem {resultAddr sourceAddr : Nat} :
    (Instr.readMem resultAddr sourceAddr).wf = true ↔ resultAddr < 128 ∧ sourceAddr < 128 := by
  simp [wf, wfReg]

theorem Instr.wf_writeMem {sourceAddr resultAddr : Nat} :
    (Instr.writeMem sourceAddr resultAddr).wf = true ↔ sourceAddr < 128 ∧ resultAddr < 128 := by
  simp [wf, wfReg]

/-- A ByteSwap within its widths names registers that exist. -/
theorem Instr.registers_lt_of_wf_byteSwap {resultAddr operandOffset resultOffset operandAddr : Nat}
    (h : (Instr.byteSwap resultAddr operandOffset resultOffset operandAddr).wf = true) :
    resultAddr < 128 ∧ operandAddr < 128 := by
  simp only [wf, wfReg, Bool.and_eq_true, decide_eq_true_eq] at h
  omega

end Sys2Proof

namespace Sys2Proof.Machine

/-! ### Entry to FAULT -/

/-- Settles O38: of the things a RUNNING step can be, only the taking of a fault ends in FAULT. -/
theorem faultEntryIsPrecise : Obligations.FaultEntryIsPrecise := by
  intro s t hrun hstep hfault
  rcases step_cases hstep with ⟨hstopped, -⟩ | ⟨-, -, rfl⟩ | ⟨-, -, e, -, rfl⟩ | ⟨-, -, i, len, hfetch, hexec⟩
  · exact absurd hrun hstopped
  · cases hfault
  · exact ⟨_, s.faultedAs_raise _⟩
  · rcases exec_of_fetch_cases hfetch hexec with ⟨regs, mem, -, rfl⟩ | ⟨info, rfl⟩
    · rw [hrun] at hfault
      cases hfault
    · exact ⟨info, s.faultedAs_raise info⟩

/-! ### The order of the memory accesses -/

/-- The word at `address`, where there is one, is not wholly inside memory (20_memory.md R35). -/
abbrev State.wordOutside (s : State) (address : Option Nat) : Prop := ∃ a, address = some a ∧ s.memSize ≤ a + 3

/-- The state after an instruction that reads memory at `rd` and writes it at `wr`, run from `s`: the read is tested
first, the write only when the read passes, and with both inside memory no fault is taken (R108). -/
inductive State.AccessResult (s : State) (rd wr : Option Nat) : State → Prop where
  | readFault {a : Nat} (hrd : rd = some a) (hread : s.memSize ≤ a + 3) :
    AccessResult s rd wr (s.raise (.outOfBounds a .memRead))
  | writeFault {a : Nat} (hread : ¬ s.wordOutside rd) (hwr : wr = some a) (hwrite : s.memSize ≤ a + 3) :
    AccessResult s rd wr (s.raise (.outOfBounds a .memWrite))
  | complete {t : State} (hread : ¬ s.wordOutside rd) (hwrite : ¬ s.wordOutside wr) (hstatus : t.status = s.status)
    (hfault : t.fault = s.fault) : AccessResult s rd wr t

/-- A well-formed instruction has its addresses, and answers by the order of its accesses. -/
theorem exec_accessResult {i : Instr} (hwf : i.wf = true) (s : State) :
    ∃ t rd wr, exec i s = .next t ∧ s.readAddress i = .ok rd ∧ s.writeAddress i = .ok wr ∧ s.AccessResult rd wr t := by
  cases i with
  | loadConst address constant =>
    obtain ⟨ha, -⟩ := Instr.wf_loadConst.1 hwf
    exact ⟨_, _, _, execLoadConst_eq s constant ha, rfl, rfl, .complete (by simp) (by simp) rfl rfl⟩
  | readMem resultAddr sourceAddr =>
    obtain ⟨hr, hq⟩ := Instr.wf_readMem.1 hwf
    have hrd : s.readAddress (.readMem resultAddr sourceAddr) = .ok (some (s.regs[sourceAddr]).toNat) := by
      rw [State.readAddress, s.indirectAddress_of_lt hq]; rfl
    rcases Nat.lt_or_ge ((s.regs[sourceAddr]).toNat + 3) s.memSize with hin | hout
    · exact ⟨_, _, _, execReadMem_inside s hr hq hin, hrd, rfl, .complete (by simpa using hin) (by simp) rfl rfl⟩
    · exact ⟨_, _, _, execReadMem_outside s hq hout, hrd, rfl, .readFault rfl hout⟩
  | writeMem sourceAddr resultAddr =>
    obtain ⟨hp, hr⟩ := Instr.wf_writeMem.1 hwf
    have hwr : s.writeAddress (.writeMem sourceAddr resultAddr) = .ok (some (s.regs[resultAddr]).toNat) := by
      rw [State.writeAddress, s.indirectAddress_of_lt hr]; rfl
    rcases Nat.lt_or_ge ((s.regs[resultAddr]).toNat + 3) s.memSize with hin | hout
    · exact ⟨_, _, _, execWriteMem_inside s hp hr hin, rfl, hwr, .complete (by simp) (by simpa using hin) rfl rfl⟩
    · exact ⟨_, _, _, execWriteMem_outside s hp hr hout, rfl, hwr, .writeFault (by simp) rfl hout⟩
  | byteSwap resultAddr operandOffset resultOffset operandAddr =>
    obtain ⟨hr, hp⟩ := Instr.registers_lt_of_wf_byteSwap hwf
    have hrd : s.readAddress (.byteSwap resultAddr operandOffset resultOffset operandAddr) =
        .ok (some ((s.regs[operandAddr]).toNat + operandOffset)) := by
      rw [State.readAddress, s.offsetAddress_of_lt _ hp]; rfl
    have hwr : s.writeAddress (.byteSwap resultAddr operandOffset resultOffset operandAddr) =
        .ok (some ((s.regs[resultAddr]).toNat + resultOffset)) := by
      rw [State.writeAddress, s.offsetAddress_of_lt _ hr]; rfl
    rcases Nat.lt_or_ge ((s.regs[operandAddr]).toNat + operandOffset + 3) s.memSize with hread | hread
    · rcases Nat.lt_or_ge ((s.regs[resultAddr]).toNat + resultOffset + 3) s.memSize with hwrite | hwrite
      · exact ⟨_, _, _, execByteSwap_inside s hr hp hread hwrite, hrd, hwr,
          .complete (by simpa using hread) (by simpa using hwrite) rfl rfl⟩
      · exact ⟨_, _, _, execByteSwap_outside_write s hr hp hread hwrite, hrd, hwr,
          .writeFault (by simpa using hread) rfl hwrite⟩
    · exact ⟨_, _, _, execByteSwap_outside_read s hr hp hread, hrd, hwr, .readFault rfl hread⟩

/-! ### The order of a step's tests -/

/-- Settles O40: the end of the stream, then the decoder's tests, then the order of the accesses. -/
theorem stepPriority : Obligations.StepPriority := by
  intro s hrun
  by_cases hpc : s.pc < s.prog.length
  case neg => exact ⟨_, step_end hrun (by omega), by rw [dif_neg hpc]; exact ⟨rfl, rfl⟩⟩
  simp only [dif_pos hpc]
  cases hop : Opcode.ofCode (opcodeNibble s.prog[s.pc]) with
  | none =>
    have hillegal := Opcode.ofCode_eq_none.1 hop
    exact ⟨_, step_error hrun hpc (decode_illegal hpc hillegal), by rw [if_pos hillegal]; exact ⟨rfl, rfl⟩⟩
  | some op =>
    have hlegal : ¬ opcodeNibble s.prog[s.pc] ∉ [2, 5, 7, 13] := by
      rw [← Opcode.ofCode_eq_none, hop]
      simp
    have hcode := Opcode.ofCode_eq_some.1 hop
    simp only [if_neg hlegal]
    rcases Nat.lt_or_ge s.prog.length (s.pc + op.length) with hshort | hin
    · refine ⟨_, step_error hrun hpc (decode_truncated hpc hcode hshort), op, hcode.symm, ?_⟩
      rw [if_pos hshort]
      exact ⟨rfl, rfl⟩
    · have hdecode := decode_complete hpc hcode hin
      obtain ⟨t, rd, wr, hexec, hrd, hwr, hresult⟩ := exec_accessResult (op.build_wf _) s
      refine ⟨t, (step_ok hrun hdecode).trans hexec, op, hcode.symm, ?_⟩
      rw [if_neg (by omega)]
      refine ⟨_, hdecode, rd, wr, hrd, hwr, ?_⟩
      cases hresult with
      | readFault haddress hread =>
        rw [if_pos ⟨_, haddress, hread⟩]
        exact ⟨⟨_, rfl⟩, rfl⟩
      | writeFault hread haddress hwrite =>
        rw [if_neg hread, if_pos ⟨_, haddress, hwrite⟩]
        exact ⟨⟨_, rfl⟩, rfl⟩
      | complete hread hwrite hstatus hfault =>
        rw [if_neg hread, if_neg hwrite]
        exact ⟨hstatus.trans hrun, hfault⟩

end Sys2Proof.Machine
end

section
/-! PROOF. Launch and the end of a launched run: a launch is the reset state but for the parameters and memory, it has
the invariant, and a run from it stops in DONE or with a fault inside the stream (70_reset_and_hazards.md R113, R120). -/

namespace Sys2Proof.Machine

/-! ### The launch state -/

theorem State.preload_append (s : State) (first second : List (List Byte × Nat)) :
    s.preload (first ++ second) = (s.preload first).preload second := by
  induction first generalizing s with
  | nil => rfl
  | cons call first ih => exact ih _

/-- A launch differs from a new session in memory alone (R113). -/
theorem State.launch_frame (memSize : Nat) (prog : List Byte) (calls : List (List Byte × Nat)) :
    State.launch memSize prog calls =
      { State.fresh memSize prog with mem := (State.launch memSize prog calls).mem } :=
  State.preload_frame _ calls

section LaunchFields
variable (memSize : Nat) (prog : List Byte) (calls : List (List Byte × Nat))

@[simp] theorem State.launch_regs : (State.launch memSize prog calls).regs = State.reset.regs :=
  (congrArg State.regs (State.launch_frame memSize prog calls)).trans (State.fresh_regs memSize prog)

@[simp] theorem State.launch_pc : (State.launch memSize prog calls).pc = 0 :=
  congrArg State.pc (State.launch_frame memSize prog calls)

@[simp] theorem State.launch_status : (State.launch memSize prog calls).status = .running :=
  congrArg State.status (State.launch_frame memSize prog calls)

@[simp] theorem State.launch_fault : (State.launch memSize prog calls).fault = none :=
  congrArg State.fault (State.launch_frame memSize prog calls)

@[simp] theorem State.launch_memSize : (State.launch memSize prog calls).memSize = memSize :=
  congrArg State.memSize (State.launch_frame memSize prog calls)

@[simp] theorem State.launch_prog : (State.launch memSize prog calls).prog = prog :=
  congrArg State.prog (State.launch_frame memSize prog calls)

end LaunchFields

/-- Settles O50: the preload runs its calls in order, and its frame gives every field but memory. -/
theorem launchState : Obligations.LaunchState :=
  fun _ _ calls bytes offset =>
    ⟨rfl, State.preload_append _ calls [(bytes, offset)], ⟨State.launch_status _ _ _, State.launch_pc _ _ _⟩,
      State.launch_regs _ _ _, State.launch_fault _ _ _, State.launch_prog _ _ _, State.launch_memSize _ _ _⟩

/-! ### The launch state has the invariant -/

/-- `load_program` keeps the invariant: it drops what lies outside memory (20_memory.md R44). -/
theorem State.Inv.loadProgram {s : State} (hs : s.Inv) (bytes : List Byte) (offset : Nat) :
    (s.loadProgram bytes offset).Inv :=
  { hs with
    memCanonical := Memory.wf_load s.memSize bytes offset hs.memCanonical
    memInside := Memory.load_inside s.memSize bytes offset hs.memInside }

/-- So does every list of preload calls. -/
theorem State.Inv.preload {s : State} (hs : s.Inv) (calls : List (List Byte × Nat)) : (s.preload calls).Inv := by
  induction calls generalizing s with
  | nil => exact hs
  | cons call calls ih => exact ih (hs.loadProgram call.1 call.2)

/-- A new session has the invariant as reset has it, at any size of at least 1 and with any stream. -/
theorem State.fresh_inv {memSize : Nat} (prog : List Byte) (hsize : 1 ≤ memSize) : (State.fresh memSize prog).Inv where
  memCanonical := resetHasInvariant.memCanonical
  memInside _ hc := absurd hc List.not_mem_nil
  memSizeBound := hsize
  pcInside := Nat.zero_le _
  doneAtEnd hdone := nomatch hdone
  faultAgrees := resetHasInvariant.faultAgrees

/-- Settles O43: a new session has the invariant and the preload keeps it. -/
theorem launchHasInvariant : Obligations.LaunchHasInvariant :=
  fun _ prog calls hsize => (State.fresh_inv prog hsize).preload calls

/-! ### What holds along a run -/

/-- What every step keeps holds after any number of steps. -/
theorem State.after_keeps {P : State → Prop} (hstep : ∀ s t, P s → step s = .next t → P t) {s : State} (hs : P s)
    (n : Nat) : P (s.after n) := by
  induction n generalizing s with
  | zero => exact hs
  | succ n ih => exact ih (hstep s _ hs (step_eq_afterStep s))

/-- No number of steps writes the program stream (R28). -/
theorem State.after_prog (s : State) (n : Nat) : (s.after n).prog = s.prog :=
  State.after_keeps (P := fun t => t.prog = s.prog) (fun _ _ hs h => (step_parameters h).1.trans hs) rfl n

/-- A machine in FAULT stands at a byte of the stream: the end of the stream is tested first, so no fault is taken
there (40_engine.md R79). -/
def State.faultInside (s : State) : Prop := s.status = .fault → s.pc < s.prog.length

theorem step_keeps_faultInside (s t : State) (hs : s.faultInside) (h : step s = .next t) : t.faultInside := by
  intro hfault
  rcases step_cases h with ⟨-, rfl⟩ | ⟨-, -, rfl⟩ | ⟨-, hpc, _, -, rfl⟩ | ⟨hrun, hpc, -⟩
  · exact hs hfault
  · cases hfault
  · exact hpc
  · obtain ⟨_, -, -, hkept, -, -, -, hprog⟩ := faultEntryIsPrecise s t hrun h hfault
    rwa [hkept, hprog]

/-! ### How a launched run ends -/

/-- In FAULT the fault field holds a record of the `pc` where the machine stands (R23, R104). -/
theorem State.exists_record_of_fault {s : State} (h : s.faultOk) (hfault : s.status = .fault) :
    ∃ r, s.fault = some r ∧ r.pc = s.pc := by
  unfold State.faultOk at h
  split at h
  next => exact absurd hfault h
  next r hr =>
    obtain ⟨-, hrecord, -⟩ := h
    exact ⟨r, hr, by rw [hrecord, FaultRecord.of_pc]⟩

/-- A stopped machine with the invariants is DONE at the end of the stream or in FAULT inside it (R120). -/
theorem State.Inv.outcome {s : State} (hs : s.Inv) (hinside : s.faultInside) (hstopped : s.status ≠ .running) :
    (s.status = .done ∧ s.fault = none ∧ s.pc = s.prog.length) ∨
      (s.status = .fault ∧ s.pc < s.prog.length ∧ ∃ r, s.fault = some r ∧ r.pc = s.pc) := by
  cases hstatus : s.status with
  | running => exact absurd hstatus hstopped
  | done =>
    have hnone : s.fault = none := (State.faultOk_iff_of_ne_fault (by simp [hstatus])).1 hs.faultAgrees
    exact .inl ⟨rfl, hnone, hs.doneAtEnd hstatus⟩
  | fault => exact .inr ⟨rfl, hinside hstatus, State.exists_record_of_fault hs.faultAgrees hstatus⟩

/-- Settles O45: the run has ended (`State.after_stopped_of_bytesLeft`), and every step kept both invariants of the
launch state. -/
theorem launchedRunOutcome : Obligations.LaunchedRunOutcome := by
  intro memSize prog calls hsize
  have hinv := State.after_keeps stepKeepsInvariant (launchHasInvariant memSize prog calls hsize) (prog.length / 3 + 1)
  have hinside : ((State.launch memSize prog calls).after (prog.length / 3 + 1)).faultInside :=
    State.after_keeps step_keeps_faultInside (fun hfault => by simp at hfault) _
  have hstopped : ((State.launch memSize prog calls).after (prog.length / 3 + 1)).status ≠ .running :=
    State.after_stopped_of_bytesLeft (by rw [State.launch_prog, State.launch_pc]; omega)
  have houtcome := hinv.outcome hinside hstopped
  rw [State.after_prog, State.launch_prog] at houtcome
  exact ⟨_, rfl, houtcome⟩

end Sys2Proof.Machine
end

section
/-! PROOF. The host's ports: the load port is open before the first step and never after a step, the inspection port is
open after the end (70_reset_and_hazards.md R117, R118). -/

namespace Sys2Proof.Machine

/-! ### The load port -/

theorem State.hostLoad_of_notStarted {s : State} (h : s.notStarted) (bytes : List Byte) (offset : Nat) :
    s.hostLoad bytes offset = .next (s.loadProgram bytes offset) :=
  if_pos h

theorem State.hostLoad_of_started {s : State} (h : ¬ s.notStarted) (bytes : List Byte) (offset : Nat) :
    s.hostLoad bytes offset = .refused .hostOutsideLicence :=
  if_neg h

/-- A step stops the machine or moves `pc` up, so after it the run has started (log 16). -/
theorem step_started {s t : State} (h : step s = .next t) : ¬ t.notStarted := by
  rintro ⟨hrun, hzero⟩
  rcases step_pc_cases h with ⟨hstopped, -⟩ | ⟨-, -, i, -, hpc⟩
  · exact hstopped hrun
  · have hlen : 3 ≤ i.length := i.opcode.length_pos
    omega

/-- Settles O52: `step_started` closes the port. -/
theorem loadPortClosesAtStart : Obligations.LoadPortClosesAtStart :=
  fun _ _ bytes offset =>
    ⟨fun h => State.hostLoad_of_notStarted h bytes offset,
      fun h => State.hostLoad_of_started (step_started h) bytes offset⟩

/-! ### The inspection port -/

section Inspect
variable {α : Type} {s : State}

theorem State.inspect_of_running (h : s.status = .running) (answer : Except AccessError α) :
    s.inspect answer = .refused .hostOutsideLicence := by
  simp [State.inspect, h]

theorem State.inspect_ok (h : s.status ≠ .running) (v : α) : s.inspect (.ok v) = .next v := by
  cases hstatus : s.status with
  | running => exact absurd hstatus h
  | done => simp [State.inspect, hstatus]
  | fault => simp [State.inspect, hstatus]

theorem State.inspect_error (h : s.status ≠ .running) (e : AccessError) :
    s.inspect (.error e : Except AccessError α) = .fault (.hostAccess e) := by
  cases hstatus : s.status with
  | running => exact absurd hstatus h
  | done => simp [State.inspect, hstatus]
  | fault => simp [State.inspect, hstatus]

end Inspect

/-- Settles O51: the port passes on what each accessor answers on either side of its bound. -/
theorem inspectionPort : Obligations.InspectionPort := by
  intro s a
  refine ⟨fun hrun => ⟨State.inspect_of_running hrun _, State.inspect_of_running hrun _,
    State.inspect_of_running hrun _⟩, fun hstopped => ⟨fun hin => ?_, fun hout => ?_, fun hin => ?_, fun hout => ?_,
    fun hin => ?_, fun hout => ?_⟩⟩
  · rw [State.hostReadByte, s.readByte_inside hin, State.inspect_ok hstopped]
  · rw [State.hostReadByte, s.readByte_outside hout, State.inspect_error hstopped]
  · rw [State.hostReadWord, s.readWord_inside hin, State.inspect_ok hstopped]
  · rw [State.hostReadWord, s.readWord_outside hout, State.inspect_error hstopped]
  · rw [State.hostGetRegister, s.getRegister_of_lt hin, State.inspect_ok hstopped]
  · rw [State.hostGetRegister, s.getRegister_of_ge hout, State.inspect_error hstopped]

end Sys2Proof.Machine
end
